-- ==== Sys2Proof/Word.lean ====
section
/-!
DEFINITION. The words of I64E: bytes, 32-bit words and limbs, and the value, an ordered pair of limbs
(10_state.md R20).
-/

namespace Sys2Proof

/-- One byte of `BUF` or `OUT`, or one character (00_scope.md R13). -/
abbrev Byte := BitVec 8

/-- A command word or a literal word (30_encoding.md R80). -/
abbrev Word := BitVec 32

/-- One of the two 32-bit unsigned components of a value (00_scope.md R12, R14). -/
abbrev Limb := BitVec 32

/-- The number of a value register, 0 to 15 (10_state.md R23). -/
abbrev Reg := Fin 16

/-- The Int64 value: "an ordered pair of unsigned 32-bit integers `(high, low)`" (10_state.md R20). -/
structure Value where
  /-- bits 63:32 -/
  high : Limb
  /-- bits 31:0 -/
  low : Limb
deriving DecidableEq, Repr, Inhabited

end Sys2Proof
end

