-- ==== Sys2Proof/Syntax.lean ====
section
/-!
DEFINITION. The 24 commands of I64E as syntax: one constructor per row of spec/opcode_table.json
(30_encoding.md R86), with the operands of its format (R82).
-/

namespace Sys2Proof

/-- The byte-order selector `e` of `ENC` and `DEC`: 0 big-endian, 1 little-endian (30_encoding.md R84). -/
inductive ByteOrder where
  | be
  | le
deriving DecidableEq, Repr

/-- A command. Shift and rotate amounts and the magnitude of `FROMINT` are integers here; WellFormed says
which of them the encoding can carry. Every other field is as wide as its encoding. -/
inductive Instr where
  /-- `FROMLIMBS vd, high, low` (R111) -/
  | fromlimbs (rd : Reg) (high low : Word)
  /-- `FROMINT vd, n`, `n` given as its sign (true for negative) and its magnitude (R83, R112) -/
  | fromint (rd : Reg) (sign : Bool) (mag : Nat)
  /-- `AND vd, va, vb` (R121) -/
  | and (rd ra rb : Reg)
  /-- `OR vd, va, vb` (R122) -/
  | or (rd ra rb : Reg)
  /-- `XOR vd, va, vb` (R123) -/
  | xor (rd ra rb : Reg)
  /-- `NOT vd, va` (R124) -/
  | not (rd ra : Reg)
  /-- `SHL vd, va, #n` (R131) -/
  | shl (rd ra : Reg) (n : Nat)
  /-- `SHRZ vd, va, #n` (R135) -/
  | shrz (rd ra : Reg) (n : Nat)
  /-- `ROTL vd, va, #n` (R139) -/
  | rotl (rd ra : Reg) (n : Nat)
  /-- `ROTR vd, va, #n` (R144) -/
  | rotr (rd ra : Reg) (n : Nat)
  /-- `ADD vd, va, vb` (R151) -/
  | add (rd ra rb : Reg)
  /-- `SUB vd, va, vb` (R153) -/
  | sub (rd ra rb : Reg)
  /-- `UCMP va, vb` (R161) -/
  | ucmp (ra rb : Reg)
  /-- `SCMP va, vb` (R163) -/
  | scmp (ra rb : Reg)
  /-- `USTR va` (R171) -/
  | ustr (ra : Reg)
  /-- `SSTR va` (R174) -/
  | sstr (ra : Reg)
  /-- `HEX va` (R177) -/
  | hex (ra : Reg)
  /-- `BSTR va` (R179) -/
  | bstr (ra : Reg)
  /-- `BITS va` (R180) -/
  | bits (ra : Reg)
  /-- `BYTES va` (R191) -/
  | bytes (ra : Reg)
  /-- `ENC.BE va` / `ENC.LE va` (R194) -/
  | enc (ra : Reg) (order : ByteOrder)
  /-- `DEC.BE vd` / `DEC.LE vd` (R196) -/
  | dec (rd : Reg) (order : ByteOrder)
  /-- `SEEK #imm` (R197) -/
  | seek (imm : BitVec 16)
  /-- `SETLEN #imm` (R198) -/
  | setlen (imm : BitVec 16)
deriving DecidableEq, Repr

end Sys2Proof
end

