-- ==== Sys2Proof/WellFormed.lean ====
section
/-!
DEFINITION. Which terms of the syntax a command word can carry. Register numbers, literal words, byte-order
selectors and immediates fit their fields by their types; two fields are integers and are checked here.
-/

namespace Sys2Proof

/-- The amount of format RI is an unsigned 8-bit field, 0 to 255 (30_encoding.md R81, R85). -/
def amountFits (n : Nat) : Bool := decide (n ≤ 255)

/-- The magnitude of `FROMINT` is a 63-bit unsigned integer (30_encoding.md R83). -/
def magnitudeFits (mag : Nat) : Bool := decide (mag < 2 ^ 63)

/-- The commands an encoding exists for. -/
def WellFormed : Instr → Bool
  | .fromlimbs _ _ _ => true
  | .fromint _ _ mag => magnitudeFits mag
  | .and _ _ _ => true
  | .or _ _ _ => true
  | .xor _ _ _ => true
  | .not _ _ => true
  | .shl _ _ n => amountFits n
  | .shrz _ _ n => amountFits n
  | .rotl _ _ n => amountFits n
  | .rotr _ _ n => amountFits n
  | .add _ _ _ => true
  | .sub _ _ _ => true
  | .ucmp _ _ => true
  | .scmp _ _ => true
  | .ustr _ => true
  | .sstr _ => true
  | .hex _ => true
  | .bstr _ => true
  | .bits _ => true
  | .bytes _ => true
  | .enc _ _ => true
  | .dec _ _ => true
  | .seek _ => true
  | .setlen _ => true

end Sys2Proof
end

