-- ==== Sys2Proof/Decode.lean ====
section
/-!
DEFINITION. The decoder, total on any sequence of command-stream words, and the encoder (30_encoding.md).
A command word is a 32-bit quantity without a byte order (20_memory.md R58), so both work on words.
-/

namespace Sys2Proof

/-- `w[hi:lo]`: "the unsigned integer made of bits `hi` down to `lo` of `w`" (00_scope.md section 5). -/
def bitField (w : Word) (hi lo : Nat) : Nat := w.toNat / 2 ^ lo % 2 ^ (hi + 1 - lo)

/-! ## The tables of the encoding -/

/-- The nine formats (30_encoding.md R82). -/
inductive Format where
  | r3
  | r2
  | ri
  | cmp
  | src
  | enc
  | dec
  | imm
  | lit
deriving DecidableEq, Repr

/-- The reserved bits of a format's command word, as (hi, lo) ranges (30_encoding.md R82). -/
def Format.reserved : Format → List (Nat × Nat)
  | .r3 => [(11, 0)]
  | .r2 => [(15, 0)]
  | .ri => [(15, 8)]
  | .cmp => [(23, 20), (11, 0)]
  | .src => [(23, 20), (15, 0)]
  | .enc => [(23, 20), (15, 1)]
  | .dec => [(19, 1)]
  | .imm => [(23, 16)]
  | .lit => [(19, 0)]

/-- The format of each command (30_encoding.md R86). -/
def Instr.format : Instr → Format
  | .fromlimbs _ _ _ => .lit
  | .fromint _ _ _ => .lit
  | .and _ _ _ => .r3
  | .or _ _ _ => .r3
  | .xor _ _ _ => .r3
  | .not _ _ => .r2
  | .shl _ _ _ => .ri
  | .shrz _ _ _ => .ri
  | .rotl _ _ _ => .ri
  | .rotr _ _ _ => .ri
  | .add _ _ _ => .r3
  | .sub _ _ _ => .r3
  | .ucmp _ _ => .cmp
  | .scmp _ _ => .cmp
  | .ustr _ => .src
  | .sstr _ => .src
  | .hex _ => .src
  | .bstr _ => .src
  | .bits _ => .src
  | .bytes _ => .src
  | .enc _ _ => .enc
  | .dec _ _ => .dec
  | .seek _ => .imm
  | .setlen _ => .imm

/-- The opcode of each command (30_encoding.md R86). -/
def Instr.opcode : Instr → Nat
  | .fromlimbs _ _ _ => 0x10
  | .fromint _ _ _ => 0x11
  | .and _ _ _ => 0x20
  | .or _ _ _ => 0x21
  | .xor _ _ _ => 0x22
  | .not _ _ => 0x23
  | .shl _ _ _ => 0x30
  | .shrz _ _ _ => 0x31
  | .rotl _ _ _ => 0x32
  | .rotr _ _ _ => 0x33
  | .add _ _ _ => 0x40
  | .sub _ _ _ => 0x41
  | .ucmp _ _ => 0x50
  | .scmp _ _ => 0x51
  | .ustr _ => 0x60
  | .sstr _ => 0x61
  | .hex _ => 0x62
  | .bstr _ => 0x63
  | .bits _ => 0x64
  | .bytes _ => 0x70
  | .enc _ _ => 0x71
  | .dec _ _ => 0x72
  | .seek _ => 0x73
  | .setlen _ => 0x74

/-- The selector bit of a byte order (30_encoding.md R84). -/
def ByteOrder.bit : ByteOrder → Nat
  | .be => 0
  | .le => 1

/-! ## Decoding -/

/-- Why a command word is illegal: the two clauses of 30_encoding.md R87. -/
inductive IllegalReason where
  /-- R87 (a): the `op` field is none of the 24 opcodes -/
  | unknownOpcode
  /-- R87 (b): a bit reserved in the command's format is 1 -/
  | reservedBit
deriving DecidableEq, Repr

/-- The decoder's verdict on the head of a stream: R89's "command", "illegal" and "truncated", and the
empty stream, which holds no command word at all. -/
inductive Decoded where
  /-- a complete command, and the words behind it -/
  | command (i : Instr) (rest : List Word)
  /-- an illegal command word, and the words behind it: no literal word is taken (R87) -/
  | illegal (why : IllegalReason) (word : Word) (rest : List Word)
  /-- a legal `FROMLIMBS` or `FROMINT` word followed by fewer than two words (R8, R89) -/
  | truncated
  /-- no word at the head of the stream -/
  | noWord
deriving DecidableEq, Repr

/-- The `rd` field, bits 23:20 (30_encoding.md R81). -/
def fieldRd (w : Word) : Reg := Fin.ofNat 16 (bitField w 23 20)

/-- The `ra` field, bits 19:16 (30_encoding.md R81). -/
def fieldRa (w : Word) : Reg := Fin.ofNat 16 (bitField w 19 16)

/-- The `rb` field, bits 15:12 (30_encoding.md R81). -/
def fieldRb (w : Word) : Reg := Fin.ofNat 16 (bitField w 15 12)

/-- The `n` field, bits 7:0, never sign-extended, scaled or reduced (30_encoding.md R85). -/
def fieldN (w : Word) : Nat := bitField w 7 0

/-- The `e` field, bit 0: 0 big-endian, 1 little-endian (30_encoding.md R84). -/
def fieldE (w : Word) : ByteOrder := if bitField w 0 0 = 0 then .be else .le

/-- The `imm16` field, bits 15:0, unscaled (30_encoding.md R85). -/
def fieldImm (w : Word) : BitVec 16 := BitVec.ofNat 16 (bitField w 15 0)

/-- Every reserved bit of the format is 0 in the word (30_encoding.md R82, R87). -/
def Format.clear (f : Format) (w : Word) : Bool := f.reserved.all fun r => bitField w r.1 r.2 == 0

/-- A command of one word (30_encoding.md R80, R89). -/
def oneWord (i : Instr) (w : Word) (rest : List Word) : Decoded :=
  if i.format.clear w then .command i rest else .illegal .reservedBit w rest

/-- A command of three words: the command word is checked before a literal word is taken
(30_encoding.md R87, R89). -/
def threeWords (make : Word → Word → Instr) (w : Word) (rest : List Word) : Decoded :=
  if Format.lit.clear w then
    match rest with
    | word1 :: word2 :: rest' => .command (make word1 word2) rest'
    | _ => .truncated
  else .illegal .reservedBit w rest

/-- `FROMINT` from its literal words: sign = word 1 bit 31, magnitude = word 1 bits 30:0 and word 2
(30_encoding.md R83, 40_construction.md R112). -/
def fromintOfWords (rd : Reg) (word1 word2 : Word) : Instr :=
  .fromint rd (bitField word1 31 31 == 1) (bitField word1 30 0 * 2 ^ 32 + word2.toNat)

/-- The decoder (30_encoding.md R81 to R89): the opcode of the first word decides format and length. -/
def decode : List Word → Decoded
  | [] => .noWord
  | w :: rest =>
    match bitField w 31 24 with
    | 0x10 => threeWords (.fromlimbs (fieldRd w)) w rest
    | 0x11 => threeWords (fromintOfWords (fieldRd w)) w rest
    | 0x20 => oneWord (.and (fieldRd w) (fieldRa w) (fieldRb w)) w rest
    | 0x21 => oneWord (.or (fieldRd w) (fieldRa w) (fieldRb w)) w rest
    | 0x22 => oneWord (.xor (fieldRd w) (fieldRa w) (fieldRb w)) w rest
    | 0x23 => oneWord (.not (fieldRd w) (fieldRa w)) w rest
    | 0x30 => oneWord (.shl (fieldRd w) (fieldRa w) (fieldN w)) w rest
    | 0x31 => oneWord (.shrz (fieldRd w) (fieldRa w) (fieldN w)) w rest
    | 0x32 => oneWord (.rotl (fieldRd w) (fieldRa w) (fieldN w)) w rest
    | 0x33 => oneWord (.rotr (fieldRd w) (fieldRa w) (fieldN w)) w rest
    | 0x40 => oneWord (.add (fieldRd w) (fieldRa w) (fieldRb w)) w rest
    | 0x41 => oneWord (.sub (fieldRd w) (fieldRa w) (fieldRb w)) w rest
    | 0x50 => oneWord (.ucmp (fieldRa w) (fieldRb w)) w rest
    | 0x51 => oneWord (.scmp (fieldRa w) (fieldRb w)) w rest
    | 0x60 => oneWord (.ustr (fieldRa w)) w rest
    | 0x61 => oneWord (.sstr (fieldRa w)) w rest
    | 0x62 => oneWord (.hex (fieldRa w)) w rest
    | 0x63 => oneWord (.bstr (fieldRa w)) w rest
    | 0x64 => oneWord (.bits (fieldRa w)) w rest
    | 0x70 => oneWord (.bytes (fieldRa w)) w rest
    | 0x71 => oneWord (.enc (fieldRa w) (fieldE w)) w rest
    | 0x72 => oneWord (.dec (fieldRd w) (fieldE w)) w rest
    | 0x73 => oneWord (.seek (fieldImm w)) w rest
    | 0x74 => oneWord (.setlen (fieldImm w)) w rest
    | _ => .illegal .unknownOpcode w rest

/-! ## Encoding -/

/-- `op << 24 | rd << 20 | ra << 16 | rb << 12 | low` of 30_encoding.md R81: the fields do not overlap,
so the sum is the bitwise OR. `low` holds bits 11:0, or bits 15:0 where `rb` is 0. -/
def packWord (op rd ra rb low : Nat) : Word :=
  BitVec.ofNat 32 (op * 2 ^ 24 + rd * 2 ^ 20 + ra * 2 ^ 16 + rb * 2 ^ 12 + low)

/-- The command word (the first word) of a command (30_encoding.md R81, R82, R86); a fault entry saves it in
`FINFO` (60_exceptions.md R211). -/
def commandWord (i : Instr) : Word :=
  match i with
  | .fromlimbs rd _ _ => packWord i.opcode rd.val 0 0 0
  | .fromint rd _ _ => packWord i.opcode rd.val 0 0 0
  | .and rd ra rb => packWord i.opcode rd.val ra.val rb.val 0
  | .or rd ra rb => packWord i.opcode rd.val ra.val rb.val 0
  | .xor rd ra rb => packWord i.opcode rd.val ra.val rb.val 0
  | .not rd ra => packWord i.opcode rd.val ra.val 0 0
  | .shl rd ra n => packWord i.opcode rd.val ra.val 0 n
  | .shrz rd ra n => packWord i.opcode rd.val ra.val 0 n
  | .rotl rd ra n => packWord i.opcode rd.val ra.val 0 n
  | .rotr rd ra n => packWord i.opcode rd.val ra.val 0 n
  | .add rd ra rb => packWord i.opcode rd.val ra.val rb.val 0
  | .sub rd ra rb => packWord i.opcode rd.val ra.val rb.val 0
  | .ucmp ra rb => packWord i.opcode 0 ra.val rb.val 0
  | .scmp ra rb => packWord i.opcode 0 ra.val rb.val 0
  | .ustr ra => packWord i.opcode 0 ra.val 0 0
  | .sstr ra => packWord i.opcode 0 ra.val 0 0
  | .hex ra => packWord i.opcode 0 ra.val 0 0
  | .bstr ra => packWord i.opcode 0 ra.val 0 0
  | .bits ra => packWord i.opcode 0 ra.val 0 0
  | .bytes ra => packWord i.opcode 0 ra.val 0 0
  | .enc ra order => packWord i.opcode 0 ra.val 0 order.bit
  | .dec rd order => packWord i.opcode rd.val 0 0 order.bit
  | .seek imm => packWord i.opcode 0 0 0 imm.toNat
  | .setlen imm => packWord i.opcode 0 0 0 imm.toNat

/-- The literal words behind a command word (30_encoding.md R83, R90). -/
def literalWords : Instr → List Word
  | .fromlimbs _ high low => [high, low]
  | .fromint _ sign mag =>
    [BitVec.ofNat 32 (sign.toNat * 2 ^ 31 + mag / 2 ^ 32), BitVec.ofNat 32 (mag % 2 ^ 32)]
  | .and _ _ _ => []
  | .or _ _ _ => []
  | .xor _ _ _ => []
  | .not _ _ => []
  | .shl _ _ _ => []
  | .shrz _ _ _ => []
  | .rotl _ _ _ => []
  | .rotr _ _ _ => []
  | .add _ _ _ => []
  | .sub _ _ _ => []
  | .ucmp _ _ => []
  | .scmp _ _ => []
  | .ustr _ => []
  | .sstr _ => []
  | .hex _ => []
  | .bstr _ => []
  | .bits _ => []
  | .bytes _ => []
  | .enc _ _ => []
  | .dec _ _ => []
  | .seek _ => []
  | .setlen _ => []

/-- The words of a well-formed command, in stream order. -/
def encode (i : Instr) : List Word := commandWord i :: literalWords i

/-! ## The opcode table's numbering of an instruction's bits -/

/-- The three words numbered by the opcode table: bit 0 is the least significant bit of the first word, and
a later word's bits count on from it; every bit at or above `nbits` is 0. -/
def tableWords (nbits w : Nat) : List Word :=
  let bitsOf := w % 2 ^ nbits
  [BitVec.ofNat 32 bitsOf, BitVec.ofNat 32 (bitsOf / 2 ^ 32), BitVec.ofNat 32 (bitsOf / 2 ^ 64)]

/-- How many of the words at the head of a stream its first command takes: three for a legal `FROMLIMBS` or
`FROMINT` word, else one (30_encoding.md R89). -/
def commandLength (ws : List Word) : Nat :=
  match decode ws with
  | .command i _ => 1 + (literalWords i).length
  | .illegal _ _ _ => 1
  | .truncated => 3
  | .noWord => 0

/-- The words of the one instruction whose bits are `w`, in the table's numbering. -/
def instructionWords (nbits w : Nat) : List Word :=
  (tableWords nbits w).take (commandLength (tableWords nbits w))

/-- What the decoder reads from an instruction whose bits are `w`, in the table's numbering. -/
def decodeTableWord (nbits w : Nat) : Option Instr :=
  match decode (instructionWords nbits w) with
  | .command i _ => some i
  | .illegal _ _ _ => none
  | .truncated => none
  | .noWord => none

end Sys2Proof
end

