-- ==== Sys2Proof/Machine/Operands.lean ====
section
/-!
DEFINITION. How a value is read (10_state.md R20, R21) and the limb primitives every engine is built from
(00_scope.md R9 to R11).
-/

namespace Sys2Proof

/-! ## Readings of a value -/

/-- `u64 = high * 2^32 + low` (10_state.md R20). -/
def Value.u64 (v : Value) : Nat := v.high.toNat * 2 ^ 32 + v.low.toNat

/-- Bit 63, the sign bit of the signed reading: `high & 0x80000000` (10_state.md R20). -/
def Value.signBit (v : Value) : Bool := v.high.getLsbD 31

/-- `s64 = u64` where the sign bit is clear, else `u64 - 2^64` (10_state.md R21). -/
def Value.s64 (v : Value) : Int := if v.signBit then (v.u64 : Int) - 2 ^ 64 else v.u64

namespace Machine

/-- `M32 = 2^32 - 1` (00_scope.md section 5). -/
def M32 : Limb := 0xFFFFFFFF

/-- `shl32(x, k) = (x * 2^k) mod 2^32`, for every `k >= 0` (00_scope.md R9). -/
def shl32 (x : Limb) (k : Nat) : Limb := BitVec.ofNat 32 (x.toNat * 2 ^ k)

/-- `shr32(x, k) = x div 2^k`, for every `k >= 0` (00_scope.md R9). -/
def shr32 (x : Limb) (k : Nat) : Limb := BitVec.ofNat 32 (x.toNat / 2 ^ k)

/-- `add_carry(a, b, cin)`: the sum modulo `2^32` and the carry, from the 33-bit sum (00_scope.md R10). -/
def addCarry (a b : Limb) (cin : Bool) : Limb × Bool :=
  let s := a.toNat + b.toNat + cin.toNat
  (BitVec.ofNat 32 s, decide (s > 0xFFFFFFFF))

/-- `sub_borrow(a, b, bin)`: the difference, `2^32` added and a borrow where it is negative, from the exact
signed difference (00_scope.md R11). -/
def subBorrow (a b : Limb) (bin : Bool) : Limb × Bool :=
  let d : Int := (a.toNat : Int) - b.toNat - bin.toNat
  if d < 0 then (BitVec.ofInt 32 (d + 2 ^ 32), true) else (BitVec.ofInt 32 d, false)

end Machine

end Sys2Proof
end

