-- ==== Sys2Proof/Config.lean ====
section
/-!
DEFINITION. What an implementation of I64E fixes, and the model's one free value.
-/

namespace Sys2Proof

/-- The named parameter of 00_scope.md R5 that the spec leaves open. State carries it, no step changes
it, and a statement about every state is a statement about every value of it (log 1).
The other open parameter, `buf_init`, is the content of `State.buf` itself (log 2). -/
structure Config where
  /-- `BUFSIZE`, the capacity of the byte buffer in bytes -/
  bufSize : Nat
deriving DecidableEq, Repr

/-- The bound of 00_scope.md R5: `8 <= BUFSIZE <= 65535`. -/
abbrev Config.wf (c : Config) : Prop := 8 ≤ c.bufSize ∧ c.bufSize ≤ 65535

/-- The parameter of the spec's test vectors, `BUFSIZE = 256` (00_scope.md R5); State.reset takes it
(DESIGN CHOICE, log 1). -/
def Config.standard : Config := { bufSize := 256 }

/-- The FREE VALUE of 40_construction.md R113: what the `n`-th `FROMINT` outside the safe range writes.
It has no body, so nothing can be proved of it (93_implementation_defined.md U1; log 4). -/
opaque Config.freeValue : Nat → Value

end Sys2Proof
end

