-- ==== Sys2Proof/Machine/State.lean ====
section
/-!
DEFINITION. The architectural state of I64E (10_state.md), its reset values (70_reset_and_hazards.md R240) and
the reasons a step can stop.
-/

namespace Sys2Proof.Machine

/-- The content of `BUF` as the cells that differ from what an unlisted byte reads as, addresses strictly
rising (10_state.md R33, 20_memory.md R50). Machine/Ops.lean gives its reads, writes and canonical form. -/
abbrev Memory := List Host.Cell

/-- Everything the spec gives the block, and two fields that are not the spec's registers: the parameter
`cfg` and the model's own counter `draws`. -/
structure State where
  /-- the open parameter `BUFSIZE`; no step changes it (00_scope.md R5, log 1) -/
  cfg : Config
  /-- the value registers `v0` to `v15` (10_state.md R23) -/
  regs : Vector Value 16
  /-- `STATUS`, control register 0: FAULT bit 0, CAUSE bits 3:1, DF bit 4 (10_state.md R28) -/
  status : Word
  /-- `FINFO`, control register 1 (10_state.md R29) -/
  finfo : Word
  /-- `ORD`, control register 2: EQ = 0, LT = 1, GT = 2 (10_state.md R25) -/
  ord : BitVec 2
  /-- `CUR`, control register 3, the cursor (10_state.md R31) -/
  cur : BitVec 16
  /-- `LEN`, control register 4, the number of valid bytes (10_state.md R32) -/
  len : BitVec 16
  /-- `OUTLEN`, control register 5, the number of meaningful bytes of `OUT` (10_state.md R30) -/
  outlen : BitVec 7
  /-- the output buffer `OUT[0..63]` (10_state.md R30) -/
  out : Vector Byte 64
  /-- the byte buffer `BUF` (10_state.md R33) -/
  buf : Memory
  /-- the words the host has pushed and no command has consumed (10_state.md R24, log 3) -/
  stream : List Word
  /-- the model's own: how many free values `FROMINT` has drawn (40_construction.md R113, log 4) -/
  draws : Nat
deriving DecidableEq, Repr

/-- The state a power-up reset leaves, for a buffer size and a buffer content (70_reset_and_hazards.md R240:
a power-up is a reset with `BUF` unspecified). -/
def State.resetWith (cfg : Config) (buf : Memory) : State where
  cfg := cfg
  regs := Vector.replicate 16 ⟨0, 0⟩
  status := 0
  finfo := 0
  ord := 0
  cur := 0
  len := 0
  outlen := 0
  out := Vector.replicate 64 0
  buf := buf
  stream := []
  draws := 0

/-- The machine right after reset (70_reset_and_hazards.md R240). `BUFSIZE = 256` and a `BUF` that lists
nothing are the model's choice for the two open parameters (DESIGN CHOICE, log 1 and log 2). -/
def State.reset : State := .resetWith .standard []

/-- Why `step` has no next state. None of these is a fault of 60_exceptions.md R210: raising one of those is
a next state. -/
inductive Fault where
  /-- Raised by `step`: `STATUS.FAULT = 1`, "the sequencer performs no step" (R220). Safe: the block does
  nothing in this state but wait for reset (log 5). -/
  | halted
  /-- Raised by `step`: the command stream is empty and the block is idle; the run has ended in a final state
  (R8). Safe: the block does nothing until the host pushes a word (log 6). -/
  | streamEmpty
  /-- Raised by `step`: the stream ends inside a three-word command, "the sequencer waits for words that never
  come", the stuck run of R8. Safe: no command is performed (log 7). -/
  | streamTruncated
  /-- Raised by `execDec` and `execEnc`: an access at or above `BUFSIZE`, where no byte exists (R51). No run
  reaches it, since `LEN <= BUFSIZE` always (R32). Safe (log 10). -/
  | noSuchAddress
deriving DecidableEq, Repr

/-- Why an instruction has no meaning. -/
inductive Refusal where
  /-- Raised by an arm of `exec` for a command not modelled yet; no arm does so. Safe. -/
  | notModelled (mnemonic : String)
deriving DecidableEq, Repr

/-- What a meaning answers. -/
abbrev Result := Host.Outcome State Fault Refusal

end Sys2Proof.Machine
end

