-- ==== Sys2Proof/Machine/Flags.lean ====
section
/-!
DEFINITION. The status bits: the fields of `STATUS` and what writes them (10_state.md R28), the fault causes
(60_exceptions.md R210), and the ordering `ORD` takes from a comparison (44_comparison.md R161, R163).
-/

namespace Sys2Proof.Machine

/-! ## STATUS -/

/-- `STATUS.FAULT`, bit 0. -/
def statusFault (w : Word) : Bool := bitField w 0 0 == 1

/-- `STATUS.CAUSE`, bits 3:1. -/
def statusCause (w : Word) : BitVec 3 := BitVec.ofNat 3 (bitField w 3 1)

/-- `STATUS.DF`, bit 4. -/
def statusDF (w : Word) : Bool := bitField w 4 4 == 1

/-- `STATUS[31:5]`, which reads as 0. -/
def statusReserved (w : Word) : BitVec 27 := BitVec.ofNat 27 (bitField w 31 5)

/-- A `STATUS` word from its fields. -/
def statusPack (reserved : BitVec 27) (df : Bool) (cause : BitVec 3) (fault : Bool) : Word :=
  BitVec.ofNat 32 (reserved.toNat * 2 ^ 5 + df.toNat * 2 ^ 4 + cause.toNat * 2 ^ 1 + fault.toNat)

/-- `STATUS` with `DF` written and every other bit kept. -/
def statusWithDF (df : Bool) (w : Word) : Word :=
  statusPack (statusReserved w) df (statusCause w) (statusFault w)

/-- The fault causes. -/
inductive Cause where
  | illegalCommand
  | encodeOverrun
  | badLength
deriving DecidableEq, Repr

/-- The cause codes (60_exceptions.md R210); 0 is "none", 4 to 7 are never produced. -/
def Cause.code : Cause → BitVec 3
  | .illegalCommand => 1
  | .encodeOverrun => 2
  | .badLength => 3

/-- `STATUS` after fault entry: `FAULT <- 1`, `CAUSE <- cause`, every other bit kept (60_exceptions.md R211). -/
def statusWithFault (cause : Cause) (w : Word) : Word :=
  statusPack (statusReserved w) (statusDF w) cause.code true

/-! ## ORD -/

/-- The code of `equal` (10_state.md R25). -/
def ordEQ : BitVec 2 := 0

/-- The code of `less` (10_state.md R25). -/
def ordLT : BitVec 2 := 1

/-- The code of `greater` (10_state.md R25). -/
def ordGT : BitVec 2 := 2

/-- `ucmp(a, b)`: the limbs as unsigned integers, `high` first, on a tie `low` (44_comparison.md R161). -/
def ucmp (a b : Value) : BitVec 2 :=
  if a.high.toNat < b.high.toNat then ordLT
  else if a.high.toNat > b.high.toNat then ordGT
  else if a.low.toNat < b.low.toNat then ordLT
  else if a.low.toNat > b.low.toNat then ordGT
  else ordEQ

/-- The signed ordering: different signs decide, equal signs fall back to `ucmp` (44_comparison.md R163). -/
def scmp (a b : Value) : BitVec 2 :=
  if a.signBit ≠ b.signBit then (if a.signBit = false then ordGT else ordLT)
  else ucmp a b

end Sys2Proof.Machine
end

