-- ==== Sys2Proof/Machine/Ops.lean ====
section
/-!
DEFINITION. The named operations over the state: registers, the output buffer, the byte buffer and its field
primitives, fault entry, and taking words from the command stream.
-/

namespace Sys2Proof.Machine

/-! ## Value registers (10_state.md R23) -/

/-- `v[i]`. -/
def State.readReg (s : State) (r : Reg) : Value := s.regs[r]

/-- `v[i] <- (h, l)`: both limbs at once. -/
def State.writeReg (s : State) (r : Reg) (v : Value) : State := { s with regs := s.regs.set r v }

/-! ## Control registers -/

/-- `ORD <- o` (10_state.md R25). -/
def State.setOrd (s : State) (o : BitVec 2) : State := { s with ord := o }

/-- `STATUS.DF <- b` (10_state.md R28). -/
def State.setDF (s : State) (b : Bool) : State := { s with status := statusWithDF b s.status }

/-- `CUR <- a` (10_state.md R31). -/
def State.setCur (s : State) (a : BitVec 16) : State := { s with cur := a }

/-- `LEN <- n` (10_state.md R32). -/
def State.setLen (s : State) (n : BitVec 16) : State := { s with len := n }

/-! ## The output buffer -/

/-- `OUT <- bytes`: the bytes, then zeros to the end of `OUT`; `OUTLEN` is their number (10_state.md R30). -/
def State.setOut (s : State) (bytes : List Byte) : State :=
  { s with
    out := Vector.ofFn fun i => bytes.getD i.val 0
    outlen := BitVec.ofNat 7 bytes.length }

/-! ## The byte buffer -/

/-- What a byte of `BUF` that the list does not hold reads as (DESIGN CHOICE, log 2). -/
def Memory.unlisted : Byte := 0

/-- One byte. -/
def Memory.read : Memory → Nat → Byte
  | [], _ => Memory.unlisted
  | (a', b) :: m, a => if a = a' then b else Memory.read m a

/-- The cells of every address but `a`. -/
def Memory.erase (m : Memory) (a : Nat) : Memory := m.filter fun c => c.1 ≠ a

/-- The cells of `m` with the cell `(a, b)` before the first cell of a higher address. -/
def Memory.insert : Memory → Nat → Byte → Memory
  | [], a, b => [(a, b)]
  | c :: m, a, b => if a < c.1 then (a, b) :: c :: m else c :: Memory.insert m a b

/-- Store one byte, keeping addresses rising and no cell equal to an unlisted byte. -/
def Memory.write (m : Memory) (a : Nat) (b : Byte) : Memory :=
  if b = Memory.unlisted then Memory.erase m a else Memory.insert (Memory.erase m a) a b

/-- The canonical form: addresses strictly rising, no cell equal to an unlisted byte. -/
abbrev Memory.wf (m : Memory) : Prop :=
  m.Pairwise (fun c d => c.1 < d.1) ∧ ∀ c ∈ m, c.2 ≠ Memory.unlisted

/-- Store a list of bytes at consecutive addresses from `a`. -/
def Memory.writeList (m : Memory) (a : Nat) : List Byte → Memory
  | [] => m
  | b :: bs => Memory.writeList (Memory.write m a b) (a + 1) bs

/-- `MemRead(addr, n)`, none where an address does not exist (20_memory.md R50, R53). -/
def State.memRead (s : State) (addr n : Nat) : Option (List Byte) :=
  if addr + n ≤ s.cfg.bufSize then some ((List.range n).map fun i => Memory.read s.buf (addr + i))
  else none

/-- `MemWrite(addr, n, bytes)` with `n` the number of bytes, none where an address does not exist
(20_memory.md R50, R54). -/
def State.memWrite (s : State) (addr : Nat) (bytes : List Byte) : Option State :=
  if addr + bytes.length ≤ s.cfg.bufSize then some { s with buf := Memory.writeList s.buf addr bytes }
  else none

/-- The bytes `x[31:24], x[23:16], x[15:8], x[7:0]` of a limb, most significant first (20_memory.md R56). -/
def bytesOfLimb (x : Limb) : List Byte :=
  [BitVec.ofNat 8 (bitField x 31 24), BitVec.ofNat 8 (bitField x 23 16),
    BitVec.ofNat 8 (bitField x 15 8), BitVec.ofNat 8 (bitField x 7 0)]

/-- A limb's bytes in the given order (20_memory.md R56). -/
def fieldBytes (order : ByteOrder) (x : Limb) : List Byte :=
  match order with
  | .be => bytesOfLimb x
  | .le => (bytesOfLimb x).reverse

/-- The number of a byte list, most significant byte first (20_memory.md R55). -/
def limbOfBytes (bytes : List Byte) : Limb :=
  BitVec.ofNat 32 (bytes.foldl (fun n b => n * 2 ^ 8 + b.toNat) 0)

/-- The limb of a byte list in the given order (20_memory.md R55). -/
def fieldLimb (order : ByteOrder) (bytes : List Byte) : Limb :=
  match order with
  | .be => limbOfBytes bytes
  | .le => limbOfBytes bytes.reverse

/-- `MemRead32(addr, order)` (20_memory.md R55). -/
def State.memRead32 (s : State) (addr : Nat) (order : ByteOrder) : Option Limb :=
  (s.memRead addr 4).map (fieldLimb order)

/-- `MemWrite32(addr, order, x)` (20_memory.md R56). -/
def State.memWrite32 (s : State) (addr : Nat) (order : ByteOrder) (x : Limb) : Option State :=
  s.memWrite addr (fieldBytes order x)

/-- Read an 8-byte field at `addr`: big-endian `high` then `low`, little-endian `low` then `high`
(20_memory.md R57, R61, 46_byte_serialization.md R196). -/
def State.readField (s : State) (addr : Nat) (order : ByteOrder) : Option Value :=
  match s.memRead32 addr order, s.memRead32 (addr + 4) order, order with
  | some first, some second, .be => some ⟨first, second⟩
  | some first, some second, .le => some ⟨second, first⟩
  | _, _, _ => none

/-- Write an 8-byte field at `addr`: big-endian `high` then `low`, little-endian `low` then `high`
(20_memory.md R57, R61, 46_byte_serialization.md R194). -/
def State.writeField (s : State) (addr : Nat) (order : ByteOrder) (v : Value) : Option State :=
  match order with
  | .be => (s.memWrite32 addr .be v.high).bind fun s' => s'.memWrite32 (addr + 4) .be v.low
  | .le => (s.memWrite32 addr .le v.low).bind fun s' => s'.memWrite32 (addr + 4) .le v.high

/-! ## Fault entry (60_exceptions.md R211) -/

/-- `raise Fault(cause)` by the command whose command word is `word`: `STATUS.FAULT`, `STATUS.CAUSE` and
`FINFO` are written, and nothing else. There is no return: only reset clears them (R221). -/
def State.raiseFault (s : State) (cause : Cause) (word : Word) : State :=
  { s with status := statusWithFault cause s.status, finfo := word }

/-- The block is halted (10_state.md R28, 60_exceptions.md R220). -/
def State.halted (s : State) : Bool := statusFault s.status

/-! ## The free value of 40_construction.md R113 -/

/-- The value the next `FROMINT` outside the safe range writes. -/
def State.freeValue (s : State) : Value := Config.freeValue s.draws

/-- Move on to the next free value. -/
def State.drawn (s : State) : State := { s with draws := s.draws + 1 }

/-! ## The command stream -/

/-- The decoder's verdict on the head of the stream (30_encoding.md R89). -/
def State.fetch (s : State) : Decoded := decode s.stream

/-- The stream with the words of one command removed from its head (10_state.md R24). -/
def State.consume (s : State) (rest : List Word) : State := { s with stream := rest }

/-- An illegal command word at the head of the stream (60_exceptions.md R212). -/
def State.takeIllegal (s : State) (word : Word) (rest : List Word) : State :=
  (s.consume rest).raiseFault .illegalCommand word

end Sys2Proof.Machine
end

