-- ==== Sys2Proof/Machine/Arithmetic.lean ====
section
/-!
DEFINITION. `ADD` and `SUB`: carry and borrow passed from the low limb to the high limb, and discarded at the
top (43_arithmetic.md).
-/

namespace Sys2Proof.Machine

/-- `add` (43_arithmetic.md R151). -/
def addValue (a b : Value) : Value :=
  let low := addCarry a.low b.low false
  let high := addCarry a.high b.high low.2
  ⟨high.1, low.1⟩

/-- `subtract`, first source minus second source (43_arithmetic.md R153). -/
def subValue (a b : Value) : Value :=
  let low := subBorrow a.low b.low false
  let high := subBorrow a.high b.high low.2
  ⟨high.1, low.1⟩

/-- `ADD vd, va, vb` (43_arithmetic.md R151). -/
def execAdd (rd ra rb : Reg) (s : State) : Result :=
  .next (s.writeReg rd (addValue (s.readReg ra) (s.readReg rb)))

/-- `SUB vd, va, vb` (43_arithmetic.md R153). -/
def execSub (rd ra rb : Reg) (s : State) : Result :=
  .next (s.writeReg rd (subValue (s.readReg ra) (s.readReg rb)))

end Sys2Proof.Machine
end

