-- ==== Sys2Proof/Machine/Bitwise.lean ====
section
/-!
DEFINITION. `AND`, `OR`, `XOR`, `NOT`: each limb by itself (41_bitwise.md).
-/

namespace Sys2Proof.Machine

/-- `and` (41_bitwise.md R121). -/
def andValue (a b : Value) : Value := ⟨a.high &&& b.high, a.low &&& b.low⟩

/-- `or` (41_bitwise.md R122). -/
def orValue (a b : Value) : Value := ⟨a.high ||| b.high, a.low ||| b.low⟩

/-- `xor` (41_bitwise.md R123). -/
def xorValue (a b : Value) : Value := ⟨a.high ^^^ b.high, a.low ^^^ b.low⟩

/-- `complement`: `M32` minus each limb (41_bitwise.md R124). -/
def notValue (a : Value) : Value := ⟨M32 - a.high, M32 - a.low⟩

/-- `AND vd, va, vb` (41_bitwise.md R121). -/
def execAnd (rd ra rb : Reg) (s : State) : Result :=
  .next (s.writeReg rd (andValue (s.readReg ra) (s.readReg rb)))

/-- `OR vd, va, vb` (41_bitwise.md R122). -/
def execOr (rd ra rb : Reg) (s : State) : Result :=
  .next (s.writeReg rd (orValue (s.readReg ra) (s.readReg rb)))

/-- `XOR vd, va, vb` (41_bitwise.md R123). -/
def execXor (rd ra rb : Reg) (s : State) : Result :=
  .next (s.writeReg rd (xorValue (s.readReg ra) (s.readReg rb)))

/-- `NOT vd, va` (41_bitwise.md R124). -/
def execNot (rd ra : Reg) (s : State) : Result :=
  .next (s.writeReg rd (notValue (s.readReg ra)))

end Sys2Proof.Machine
end

