-- ==== Sys2Proof/Machine/Comparison.lean ====
section
/-!
DEFINITION. `UCMP` and `SCMP`: each writes `ORD` and nothing else (44_comparison.md).
-/

namespace Sys2Proof.Machine

/-- `UCMP va, vb` (44_comparison.md R161). -/
def execUcmp (ra rb : Reg) (s : State) : Result :=
  .next (s.setOrd (ucmp (s.readReg ra) (s.readReg rb)))

/-- `SCMP va, vb` (44_comparison.md R163). -/
def execScmp (ra rb : Reg) (s : State) : Result :=
  .next (s.setOrd (scmp (s.readReg ra) (s.readReg rb)))

end Sys2Proof.Machine
end

