-- ==== Sys2Proof/Machine/Construction.lean ====
section
/-!
DEFINITION. `FROMLIMBS` and `FROMINT` (40_construction.md).
-/

namespace Sys2Proof.Machine

/-- The largest magnitude of the safe-integer range, `2^53 - 1` (00_scope.md R5, 40_construction.md R112). -/
def safeMagnitude : Nat := 2 ^ 53 - 1

/-- A host integer of the safe range as a value: the magnitude's limbs, and for a set sign both limbs
complemented and 1 added, the carry going into the high limb (40_construction.md R112). -/
def valueOfSafeInt (sign : Bool) (mag : Nat) : Value :=
  let mh : Limb := BitVec.ofNat 32 (mag / 2 ^ 32)
  let ml : Limb := BitVec.ofNat 32 (mag % 2 ^ 32)
  if sign then
    let low := addCarry (M32 - ml) 1 false
    let high := addCarry (M32 - mh) 0 low.2
    ⟨high.1, low.1⟩
  else ⟨mh, ml⟩

/-- `FROMLIMBS vd, high, low` (40_construction.md R111). -/
def execFromlimbs (rd : Reg) (high low : Word) (s : State) : Result :=
  .next (s.writeReg rd ⟨high, low⟩)

/-- `FROMINT vd, n`: R112 in the safe range; above it `v[rd]` takes a free value and the command completes
(40_construction.md R113, log 4). -/
def execFromint (rd : Reg) (sign : Bool) (mag : Nat) (s : State) : Result :=
  if mag ≤ safeMagnitude then .next (s.writeReg rd (valueOfSafeInt sign mag))
  else .next ((s.writeReg rd s.freeValue).drawn)

end Sys2Proof.Machine
end

