-- ==== Sys2Proof/Machine/Serialization.lean ====
section
/-!
DEFINITION. `BYTES`, `ENC`, `DEC`, `SEEK`, `SETLEN` (46_byte_serialization.md).
-/

namespace Sys2Proof.Machine

/-- The 4 bytes of `high` then the 4 bytes of `low`, each most significant byte first
(46_byte_serialization.md R191). -/
def bytesOf (v : Value) : List Byte := bytesOfLimb v.high ++ bytesOfLimb v.low

/-- `CUR <- A + 8` and, where that is larger, `LEN <- A + 8`: what `ENC` does after its 8 bytes
(46_byte_serialization.md R194). -/
def State.afterEncode (s : State) (a : Nat) : State :=
  let s' := s.setCur (BitVec.ofNat 16 (a + 8))
  if a + 8 > s.len.toNat then s'.setLen (BitVec.ofNat 16 (a + 8)) else s'

/-- `BYTES va` (46_byte_serialization.md R191). -/
def execBytes (ra : Reg) (s : State) : Result := .next (s.setOut (bytesOf (s.readReg ra)))

/-- `ENC.BE va` / `ENC.LE va`: `ENCODE_OVERRUN` before any write where the 8 bytes do not fit below `BUFSIZE`
(46_byte_serialization.md R194, 60_exceptions.md R213). -/
def execEnc (ra : Reg) (order : ByteOrder) (s : State) : Result :=
  let a := s.cur.toNat
  if a + 8 > s.cfg.bufSize then .next (s.raiseFault .encodeOverrun (commandWord (.enc ra order)))
  else
    match s.writeField a order (s.readReg ra) with
    | some s' => .next (s'.afterEncode a)
    | none => .fault .noSuchAddress

/-- `DEC.BE vd` / `DEC.LE vd`: with fewer than 8 bytes remaining only `STATUS.DF <- 1`
(46_byte_serialization.md R196). -/
def execDec (rd : Reg) (order : ByteOrder) (s : State) : Result :=
  let a := s.cur.toNat
  if a + 8 > s.len.toNat then .next (s.setDF true)
  else
    match s.readField a order with
    | some v => .next (((s.writeReg rd v).setCur (BitVec.ofNat 16 (a + 8))).setDF false)
    | none => .fault .noSuchAddress

/-- `SEEK #imm`: any 16-bit cursor (46_byte_serialization.md R197). -/
def execSeek (imm : BitVec 16) (s : State) : Result := .next (s.setCur imm)

/-- `SETLEN #imm`: `BAD_LENGTH` where the immediate exceeds `BUFSIZE` (46_byte_serialization.md R198,
60_exceptions.md R214). -/
def execSetlen (imm : BitVec 16) (s : State) : Result :=
  if imm.toNat > s.cfg.bufSize then .next (s.raiseFault .badLength (commandWord (.setlen imm)))
  else .next (s.setLen imm)

end Sys2Proof.Machine
end

