-- ==== Sys2Proof/Machine/ShiftRotate.lean ====
section
/-!
DEFINITION. `SHL`, `SHRZ`, `ROTL`, `ROTR`, built from the 32-bit limb shifts (42_shift_rotate.md). A limb is a
32-bit vector, so the `& M32` of the rules' pseudocode is the identity here.
-/

namespace Sys2Proof.Machine

/-- `shiftLeftBy` (42_shift_rotate.md R131). -/
def shlValue (v : Value) (n : Nat) : Value :=
  if n > 32 then ⟨shl32 v.low (n - 32), 0⟩
  else ⟨shl32 v.high n ||| shr32 v.low (32 - n), shl32 v.low n⟩

/-- `shiftRightZfBy` (42_shift_rotate.md R135). -/
def shrzValue (v : Value) (n : Nat) : Value :=
  if n > 32 then ⟨0, shr32 v.high (n - 32)⟩
  else if n = 32 then ⟨0, v.high⟩
  else ⟨shr32 v.high n, shr32 v.low n ||| shl32 v.high (32 - n)⟩

/-- `rotateLeftBy`, the amount reduced modulo 64 (42_shift_rotate.md R139). -/
def rotlValue (v : Value) (n : Nat) : Value :=
  let r := n % 64
  if r = 0 then v
  else if r = 32 then ⟨v.low, v.high⟩
  else if r < 32 then
    ⟨shl32 v.high r ||| shr32 v.low (32 - r), shl32 v.low r ||| shr32 v.high (32 - r)⟩
  else
    let m := r - 32
    ⟨shl32 v.low m ||| shr32 v.high (32 - m), shl32 v.high m ||| shr32 v.low (32 - m)⟩

/-- `rotateRightBy`, the amount reduced modulo 64 (42_shift_rotate.md R144). -/
def rotrValue (v : Value) (n : Nat) : Value :=
  let r := n % 64
  if r = 0 then v
  else if r = 32 then ⟨v.low, v.high⟩
  else if r < 32 then
    ⟨shr32 v.high r ||| shl32 v.low (32 - r), shr32 v.low r ||| shl32 v.high (32 - r)⟩
  else
    let k := 64 - r
    ⟨shl32 v.high k ||| shr32 v.low (32 - k), shl32 v.low k ||| shr32 v.high (32 - k)⟩

/-- `SHL vd, va, #n` (42_shift_rotate.md R131). -/
def execShl (rd ra : Reg) (n : Nat) (s : State) : Result :=
  .next (s.writeReg rd (shlValue (s.readReg ra) n))

/-- `SHRZ vd, va, #n` (42_shift_rotate.md R135). -/
def execShrz (rd ra : Reg) (n : Nat) (s : State) : Result :=
  .next (s.writeReg rd (shrzValue (s.readReg ra) n))

/-- `ROTL vd, va, #n` (42_shift_rotate.md R139). -/
def execRotl (rd ra : Reg) (n : Nat) (s : State) : Result :=
  .next (s.writeReg rd (rotlValue (s.readReg ra) n))

/-- `ROTR vd, va, #n` (42_shift_rotate.md R144). -/
def execRotr (rd ra : Reg) (n : Nat) (s : State) : Result :=
  .next (s.writeReg rd (rotrValue (s.readReg ra) n))

end Sys2Proof.Machine
end

