-- ==== Sys2Proof/Machine/StringConversion.lean ====
section
/-!
DEFINITION. `USTR`, `SSTR`, `HEX`, `BSTR`, `BITS`: each renders `v[ra]` into the output buffer
(45_string_conversion.md). Characters are their ASCII codes (00_scope.md R13).
-/

namespace Sys2Proof.Machine

/-- `digit(d) = 0x30 + d` (00_scope.md R13). -/
def digitChar (d : Nat) : Byte := BitVec.ofNat 8 (0x30 + d)

/-- The character `'-'` (00_scope.md R13). -/
def minusChar : Byte := 0x2D

/-- The digit loop of 45_string_conversion.md R171 on the limbs `h`, `l`, with `str` the digits found so far.
Each step divides `h * 2^32 + l` by 10, and `fuel` bounds the steps: 19 are enough (R172, log 15). -/
def ustrLoop : Nat → Limb → Limb → List Byte → List Byte
  | 0, _, l, str => digitChar l.toNat :: str
  | fuel + 1, h, l, str =>
    if h = 0 ∧ l.toNat < 10 then digitChar l.toNat :: str
    else
      let combined := h.toNat % 10 * 2 ^ 32 + l.toNat
      ustrLoop fuel (BitVec.ofNat 32 (h.toNat / 10)) (BitVec.ofNat 32 (combined / 10))
        (digitChar (combined % 10) :: str)

/-- `ustr(h, l)`: the unsigned decimal string (45_string_conversion.md R171). -/
def ustrOf (v : Value) : List Byte := ustrLoop 20 v.high v.low []

/-- Two's-complement negation, `complement` then `add` 1 (45_string_conversion.md R173). -/
def negateValue (v : Value) : Value := addValue (notValue v) ⟨0, 1⟩

/-- The signed decimal string (45_string_conversion.md R174). -/
def sstrOf (v : Value) : List Byte :=
  if v.signBit then minusChar :: ustrOf (negateValue v) else ustrOf v

/-- `hexdigit(d)`, lowercase (45_string_conversion.md R176). -/
def hexDigit (d : Nat) : Byte :=
  if d ≤ 9 then BitVec.ofNat 8 (0x30 + d) else BitVec.ofNat 8 (0x61 + (d - 10))

/-- `hex8(x)`: the eight digits of a limb, most significant first (45_string_conversion.md R176). -/
def hex8 (x : Limb) : List Byte :=
  [hexDigit (bitField x 31 28), hexDigit (bitField x 27 24), hexDigit (bitField x 23 20),
    hexDigit (bitField x 19 16), hexDigit (bitField x 15 12), hexDigit (bitField x 11 8),
    hexDigit (bitField x 7 4), hexDigit (bitField x 3 0)]

/-- The hexadecimal string, high limb first (45_string_conversion.md R177). -/
def hexOf (v : Value) : List Byte := hex8 v.high ++ hex8 v.low

/-- The bits of a limb, most significant first. -/
def limbBits (x : Limb) : List Bool := (List.range 32).map fun i => x.getLsbD (31 - i)

/-- `bit(0), ..., bit(63)`: most significant bit of `high` first, least significant bit of `low` last
(45_string_conversion.md R178). -/
def valueBits (v : Value) : List Bool := limbBits v.high ++ limbBits v.low

/-- The bit string: a character `'0'` or `'1'` a bit (45_string_conversion.md R179). -/
def bstrOf (v : Value) : List Byte := (valueBits v).map fun b => digitChar b.toNat

/-- The bit list: a byte 0x00 or 0x01 a bit (45_string_conversion.md R180). -/
def bitsOf (v : Value) : List Byte := (valueBits v).map fun b => BitVec.ofNat 8 b.toNat

/-- `USTR va` (45_string_conversion.md R171). -/
def execUstr (ra : Reg) (s : State) : Result := .next (s.setOut (ustrOf (s.readReg ra)))

/-- `SSTR va` (45_string_conversion.md R174). -/
def execSstr (ra : Reg) (s : State) : Result := .next (s.setOut (sstrOf (s.readReg ra)))

/-- `HEX va` (45_string_conversion.md R177). -/
def execHex (ra : Reg) (s : State) : Result := .next (s.setOut (hexOf (s.readReg ra)))

/-- `BSTR va` (45_string_conversion.md R179). -/
def execBstr (ra : Reg) (s : State) : Result := .next (s.setOut (bstrOf (s.readReg ra)))

/-- `BITS va` (45_string_conversion.md R180). -/
def execBits (ra : Reg) (s : State) : Result := .next (s.setOut (bitsOf (s.readReg ra)))

end Sys2Proof.Machine
end

