-- ==== Sys2Proof/Machine/Dispatch.lean ====
section
/-!
DEFINITION. One arm per command: what a command does to the state (the words it came from are taken off the
stream by Machine/Step.lean).
-/

namespace Sys2Proof.Machine

def exec (i : Instr) (s : State) : Host.Outcome State Fault Refusal :=
  match i with
  | .fromlimbs rd high low => Sys2Proof.Machine.execFromlimbs rd high low s
  | .fromint rd sign mag => Sys2Proof.Machine.execFromint rd sign mag s
  | .and rd ra rb => Sys2Proof.Machine.execAnd rd ra rb s
  | .or rd ra rb => Sys2Proof.Machine.execOr rd ra rb s
  | .xor rd ra rb => Sys2Proof.Machine.execXor rd ra rb s
  | .not rd ra => Sys2Proof.Machine.execNot rd ra s
  | .shl rd ra n => Sys2Proof.Machine.execShl rd ra n s
  | .shrz rd ra n => Sys2Proof.Machine.execShrz rd ra n s
  | .rotl rd ra n => Sys2Proof.Machine.execRotl rd ra n s
  | .rotr rd ra n => Sys2Proof.Machine.execRotr rd ra n s
  | .add rd ra rb => Sys2Proof.Machine.execAdd rd ra rb s
  | .sub rd ra rb => Sys2Proof.Machine.execSub rd ra rb s
  | .ucmp ra rb => Sys2Proof.Machine.execUcmp ra rb s
  | .scmp ra rb => Sys2Proof.Machine.execScmp ra rb s
  | .ustr ra => Sys2Proof.Machine.execUstr ra s
  | .sstr ra => Sys2Proof.Machine.execSstr ra s
  | .hex ra => Sys2Proof.Machine.execHex ra s
  | .bstr ra => Sys2Proof.Machine.execBstr ra s
  | .bits ra => Sys2Proof.Machine.execBits ra s
  | .bytes ra => Sys2Proof.Machine.execBytes ra s
  | .enc ra order => Sys2Proof.Machine.execEnc ra order s
  | .dec rd order => Sys2Proof.Machine.execDec rd order s
  | .seek imm => Sys2Proof.Machine.execSeek imm s
  | .setlen imm => Sys2Proof.Machine.execSetlen imm s

end Sys2Proof.Machine
end

