-- ==== Sys2Proof/Machine/Step.lean ====
section
/-!
DEFINITION. One step of the command sequencer (00_scope.md R6).
-/

namespace Sys2Proof.Machine

/-- One complete command from the head of the stream, performed whole. A halted block performs no step
(60_exceptions.md R220); the words of the command, and of a command that raises a fault, are taken off the
stream (log 8); a legal three-word command that is not complete is not started (00_scope.md R8). -/
def step (s : State) : Host.Outcome State Fault Refusal :=
  if s.halted then .fault .halted
  else
    match s.fetch with
    | .command i rest => exec i (s.consume rest)
    | .illegal _ word rest => .next (s.takeIllegal word rest)
    | .truncated => .fault .streamTruncated
    | .noWord => .fault .streamEmpty

/-- `s` with the one instruction whose bits are `w` (numbered as the opcode table numbers them) at the head of
the command stream, as the host's push port puts it there; the words already pushed stand behind it. Nothing
else changes: a halted block stays halted (log 3). -/
def State.withFetchWord (s : State) (nbits w : Nat) : State :=
  { s with stream := instructionWords nbits w ++ s.stream }

end Sys2Proof.Machine
end

