-- ==== Sys2Proof/Machine/Assembler.lean ====
section
/-!
DEFINITION. The assembler syntax of 30_encoding.md R90: one line of text to the words of one command. It is no part of the
machine; the spec defines it so that programs can be written down (DESIGN CHOICE on spacing, log 20).
-/

namespace Sys2Proof

/-- The text before a `;`, which starts a comment. -/
def asmCode (line : List Char) : List Char := line.takeWhile (· ≠ ';')

/-- The pieces of a text between commas. -/
def asmSplit : List Char → List (List Char)
  | [] => [[]]
  | c :: cs =>
    match asmSplit cs with
    | [] => [[c]]
    | piece :: more => if c = ',' then [] :: piece :: more else (c :: piece) :: more

/-- The value of a digit character below `base`. -/
def asmDigit (base : Nat) (c : Char) : Option Nat :=
  let d :=
    if '0' ≤ c ∧ c ≤ '9' then c.toNat - '0'.toNat
    else if 'a' ≤ c ∧ c ≤ 'f' then c.toNat - 'a'.toNat + 10
    else if 'A' ≤ c ∧ c ≤ 'F' then c.toNat - 'A'.toNat + 10
    else base
  if d < base then some d else none

/-- A numeral in `base`, most significant digit first, continuing `acc`. -/
def asmDigits (base : Nat) : Nat → List Char → Option Nat
  | acc, [] => some acc
  | acc, c :: cs => (asmDigit base c).bind fun d => asmDigits base (acc * base + d) cs

/-- A number: decimal, or hexadecimal after `0x`. -/
def asmNat : List Char → Option Nat
  | [] => none
  | '0' :: 'x' :: c :: cs => asmDigits 16 0 (c :: cs)
  | c :: cs => asmDigits 10 0 (c :: cs)

/-- A number with an optional minus sign. -/
def asmInt : List Char → Option Int
  | '-' :: cs => (asmNat cs).map fun n => -(n : Int)
  | cs => (asmNat cs).map fun n => (n : Int)

/-- A register name `v0` to `v15`. -/
def asmReg : List Char → Option Reg
  | ['v', c] => (asmDigit 10 c).map (Fin.ofNat 16)
  | ['v', '1', c] => (asmDigit 10 c).bind fun d => if d ≤ 5 then some (Fin.ofNat 16 (10 + d)) else none
  | _ => none

/-- A number after `#`, at most `max`. -/
def asmHash (max : Nat) : List Char → Option Nat
  | '#' :: cs => (asmNat cs).bind fun n => if n ≤ max then some n else none
  | _ => none

/-- A literal word, 0 to `0xFFFFFFFF`. -/
def asmWord (cs : List Char) : Option Word :=
  (asmNat cs).bind fun n => if n < 2 ^ 32 then some (BitVec.ofNat 32 n) else none

/-- `FROMINT vd, n` for a signed integer with `|n| <= 2^63 - 1`: sign 1 exactly for `n < 0`, so that a written
`-0` has sign 0 (30_encoding.md R90). -/
def fromintOfInt (rd : Reg) (n : Int) : Option Instr :=
  if n.natAbs ≤ 2 ^ 63 - 1 then some (.fromint rd (decide (n < 0)) n.natAbs) else none

/-- Operands `vd, va, vb`. -/
def asmR3 (make : Reg → Reg → Reg → Instr) : List (List Char) → Option Instr
  | [d, a, b] => (asmReg d).bind fun d => (asmReg a).bind fun a => (asmReg b).map (make d a)
  | _ => none

/-- Operands `vd, va, #n`, `n` 0 to 255. -/
def asmRI (make : Reg → Reg → Nat → Instr) : List (List Char) → Option Instr
  | [d, a, n] => (asmReg d).bind fun d => (asmReg a).bind fun a => (asmHash 255 n).map (make d a)
  | _ => none

/-- Operands of two registers. -/
def asmR2 (make : Reg → Reg → Instr) : List (List Char) → Option Instr
  | [a, b] => (asmReg a).bind fun a => (asmReg b).map (make a)
  | _ => none

/-- An operand of one register. -/
def asmR1 (make : Reg → Instr) : List (List Char) → Option Instr
  | [a] => (asmReg a).map make
  | _ => none

/-- An operand `#imm`, 0 to 65535. -/
def asmImm (make : BitVec 16 → Instr) : List (List Char) → Option Instr
  | [n] => (asmHash 65535 n).map fun n => make (BitVec.ofNat 16 n)
  | _ => none

/-- Operands `vd, high, low`. -/
def asmLimbs : List (List Char) → Option Instr
  | [d, h, l] => (asmReg d).bind fun d => (asmWord h).bind fun h => (asmWord l).map (.fromlimbs d h)
  | _ => none

/-- Operands `vd, n`. -/
def asmFromint : List (List Char) → Option Instr
  | [d, n] => (asmReg d).bind fun d => (asmInt n).bind (fromintOfInt d)
  | _ => none

/-- The mnemonics, each with how its operands are read (30_encoding.md R90). -/
def asmTable : List (String × (List (List Char) → Option Instr)) :=
  [("FROMLIMBS", asmLimbs), ("FROMINT", asmFromint), ("AND", asmR3 .and), ("OR", asmR3 .or),
    ("XOR", asmR3 .xor), ("NOT", asmR2 .not), ("SHL", asmRI .shl), ("SHRZ", asmRI .shrz)] ++
  [("ROTL", asmRI .rotl), ("ROTR", asmRI .rotr), ("ADD", asmR3 .add), ("SUB", asmR3 .sub),
    ("UCMP", asmR2 .ucmp), ("SCMP", asmR2 .scmp), ("USTR", asmR1 .ustr), ("SSTR", asmR1 .sstr)] ++
  [("HEX", asmR1 .hex), ("BSTR", asmR1 .bstr), ("BITS", asmR1 .bits), ("BYTES", asmR1 .bytes),
    ("ENC.BE", asmR1 fun a => .enc a .be), ("ENC.LE", asmR1 fun a => .enc a .le),
    ("DEC.BE", asmR1 fun d => .dec d .be), ("DEC.LE", asmR1 fun d => .dec d .le)] ++
  [("SEEK", asmImm .seek), ("SETLEN", asmImm .setlen)]

/-- The command of a line: a mnemonic, a space, and its operands with the spaces taken out. -/
def assemble (line : String) : Option Instr :=
  let code := (asmCode line.toList).dropWhile (· = ' ')
  let name := code.takeWhile (· ≠ ' ')
  let operands := asmSplit ((code.drop name.length).filter (· ≠ ' '))
  (asmTable.find? fun row => row.1.toList == name).bind fun row => row.2 operands

/-- The command words of a line, in stream order. -/
def assembleWords (line : String) : Option (List Word) := (assemble line).map encode

end Sys2Proof
end

