-- ==== Sys2Proof/Machine/HostPort.lean ====
section
/-!
DEFINITION. The host's ports (00_scope.md R7): reset input, command stream input, buffer load and readout. They act
between steps; the step itself never calls them.
-/

namespace Sys2Proof.Machine

/-- The reset input: every register at its reset value, the command stream empty, `BUF` kept
(70_reset_and_hazards.md R240). The parameter and the model's own counter go on. -/
def State.hostReset (s : State) : State := { State.resetWith s.cfg s.buf with draws := s.draws }

/-- The command stream input: the host's words go behind those already pushed (R7 b). A halted block takes
none of them (60_exceptions.md R220). -/
def State.hostPush (s : State) (words : List Word) : State := { s with stream := s.stream ++ words }

/-- Idle: "command stream empty, no fault" (00_scope.md R14). -/
def State.idle (s : State) : Bool := s.stream.isEmpty && !s.halted

/-- The buffer load: one byte of `BUF`, while the block is idle (R7 c); none where the host may not do it
(93_implementation_defined.md U14, log 12). -/
def State.hostLoad (s : State) (addr : Nat) (b : Byte) : Option State :=
  if s.idle ∧ addr < s.cfg.bufSize then some { s with buf := Memory.write s.buf addr b } else none

/-- Readout of a value register (R7 d). -/
def State.hostValue (s : State) (r : Reg) : Value := s.readReg r

/-- Readout of a control register by its number, zero-extended to 32 bits; a number that does not exist reads
0 (10_state.md R27). -/
def State.hostControl (s : State) (number : Nat) : Word :=
  match number with
  | 0 => s.status
  | 1 => s.finfo
  | 2 => s.ord.setWidth 32
  | 3 => s.cur.setWidth 32
  | 4 => s.len.setWidth 32
  | 5 => s.outlen.setWidth 32
  | _ => 0

/-- Readout of one byte of `OUT` (R7 d). -/
def State.hostOut (s : State) (i : Fin 64) : Byte := s.out[i]

/-- The meaningful bytes of `OUT`, the first `OUTLEN` (10_state.md R30). -/
def State.outBytes (s : State) : List Byte := s.out.toList.take s.outlen.toNat

/-- Readout of one byte of `BUF`, none at an address that does not exist (R7 d, 20_memory.md R50). -/
def State.hostBuf (s : State) (addr : Nat) : Option Byte :=
  if addr < s.cfg.bufSize then some (Memory.read s.buf addr) else none

end Sys2Proof.Machine
end

