-- ==== Sys2Proof/Safety.lean ====
section
/-!
DEFINITION. What a run is and how it ends (00_scope.md R8), and the invariant of the state (10_state.md).
-/

namespace Sys2Proof.Machine

/-- The three ways a run ends (00_scope.md R8). -/
inductive RunEnd where
  /-- every word consumed by complete commands, and `STATUS.FAULT = 0` -/
  | final
  /-- a command raised a fault and the block is halted -/
  | faulted
  /-- the stream ends inside a three-word command -/
  | stuck
deriving DecidableEq, Repr

/-- How the run has ended, if it has: none where the next step takes a command. -/
def State.runEnd (s : State) : Option RunEnd :=
  if s.halted then some .faulted
  else
    match s.fetch with
    | .command _ _ => none
    | .illegal _ _ _ => none
    | .truncated => some .stuck
    | .noWord => some .final

/-- At most `k` steps, staying in a state that has no next one. -/
def runFor : Nat → State → State
  | 0, s => s
  | k + 1, s =>
    match step s with
    | .next s' => runFor k s'
    | .fault _ => s
    | .refused _ => s

/-- The run of a state's own command stream: every step takes at least one word. -/
def State.runToEnd (s : State) : State := runFor s.stream.length s

/-- What holds in every state of a run, by the spec's own words. -/
structure State.Inv (s : State) : Prop where
  /-- `8 <= BUFSIZE <= 65535` (00_scope.md R5) -/
  cfg_wf : s.cfg.wf
  /-- `LEN <= BUFSIZE` (10_state.md R32) -/
  len_le : s.len.toNat ≤ s.cfg.bufSize
  /-- `BUF` in its canonical form -/
  buf_wf : Memory.wf s.buf
  /-- no byte at or above `BUFSIZE` (20_memory.md R50) -/
  buf_inside : ∀ c ∈ s.buf, c.1 < s.cfg.bufSize
  /-- `ORD` is EQ, LT or GT (10_state.md R25) -/
  ord_code : s.ord = ordEQ ∨ s.ord = ordLT ∨ s.ord = ordGT
  /-- `OUTLEN` is 0 to 64 (10_state.md R30) -/
  outlen_le : s.outlen.toNat ≤ 64
  /-- "`OUT[i] = 0` for `i >= OUTLEN`" (10_state.md R30) -/
  out_tail : ∀ i : Fin 64, s.outlen.toNat ≤ i.val → s.hostOut i = 0
  /-- `STATUS[31:5]` reads as 0 (10_state.md R28) -/
  status_reserved : statusReserved s.status = 0
  /-- `CAUSE` is 0 while `FAULT = 0`, and `FINFO` with it (10_state.md R28, R29) -/
  no_fault : s.halted = false → statusCause s.status = 0 ∧ s.finfo = 0
  /-- `CAUSE` is one of the three codes while `FAULT = 1` (60_exceptions.md R210) -/
  fault_cause : s.halted = true → ∃ c : Cause, statusCause s.status = c.code

end Sys2Proof.Machine
end

