-- ==== Sys2Proof/Certificates/Slice0/Obligations.lean ====
section
/-!
DEFINITION. The statements for the provers. They are made of the rules of spec/, file by file; `Claims` holds the words
they share.
-/

namespace Sys2Proof.Claims

open Sys2Proof.Machine

/-! ## What stays the same -/

/-- Every value register but `rd`. -/
def RegsSameBut (rd : Reg) (s t : State) : Prop := ∀ r, r ≠ rd → t.readReg r = s.readReg r

/-- Every value register. -/
def RegsSame (s t : State) : Prop := ∀ r, t.readReg r = s.readReg r

/-- `OUT` and `OUTLEN`. -/
def OutSame (s t : State) : Prop := t.outlen = s.outlen ∧ ∀ i, t.hostOut i = s.hostOut i

/-- Every byte of `BUF`. -/
def BytesSame (s t : State) : Prop := ∀ a, Memory.read t.buf a = Memory.read s.buf a

/-- Every byte of `BUF` outside `[a, a + n)`. -/
def BytesSameOutside (a n : Nat) (s t : State) : Prop :=
  ∀ b, b < a ∨ a + n ≤ b → Memory.read t.buf b = Memory.read s.buf b

/-- `BUFSIZE` and the command stream: no command touches them. -/
def InputsSame (s t : State) : Prop := t.cfg = s.cfg ∧ t.stream = s.stream

/-- `STATUS` (with `FAULT`, `CAUSE` and `DF`) and `FINFO`. -/
def StatusSame (s t : State) : Prop := t.status = s.status ∧ t.finfo = s.finfo

/-- `CUR` and `LEN`. -/
def CursorSame (s t : State) : Prop := t.cur = s.cur ∧ t.len = s.len

/-- The frame of a command whose one effect is on `v[rd]`. -/
def OnlyReg (rd : Reg) (s t : State) : Prop :=
  RegsSameBut rd s t ∧ t.ord = s.ord ∧ StatusSame s t ∧ CursorSame s t ∧ OutSame s t ∧ BytesSame s t ∧
    InputsSame s t ∧ t.draws = s.draws

/-- The frame of a command whose one effect is on `ORD`. -/
def OnlyOrd (s t : State) : Prop :=
  RegsSame s t ∧ StatusSame s t ∧ CursorSame s t ∧ OutSame s t ∧ BytesSame s t ∧ InputsSame s t ∧
    t.draws = s.draws

/-- The frame of a command whose one effect is on `OUT` and `OUTLEN`. -/
def OnlyOut (s t : State) : Prop :=
  RegsSame s t ∧ t.ord = s.ord ∧ StatusSame s t ∧ CursorSame s t ∧ BytesSame s t ∧ InputsSame s t ∧
    t.draws = s.draws

/-- Everything but `CUR`, `LEN`, `STATUS`, `FINFO`, `BUF` and the stream. -/
def RestSame (s t : State) : Prop :=
  RegsSame s t ∧ t.ord = s.ord ∧ OutSame s t ∧ t.cfg = s.cfg ∧ t.draws = s.draws

/-- `t` is `s` after fault entry with a cause code and the command word of the faulting command: `FAULT`,
`CAUSE` and `FINFO` are written and nothing else but, perhaps, the stream (60_exceptions.md R211). -/
def FaultEntered (code : BitVec 3) (word : Word) (s t : State) : Prop :=
  statusFault t.status = true ∧ statusCause t.status = code ∧ t.finfo = word ∧
    statusDF t.status = statusDF s.status ∧ statusReserved t.status = statusReserved s.status ∧
    CursorSame s t ∧ BytesSame s t ∧ RestSame s t

/-! ## What results are -/

/-- `OUT <- bytes` has been performed (10_state.md R30). -/
def OutIs (t : State) (bytes : List Byte) : Prop :=
  t.outlen.toNat = bytes.length ∧ ∀ i : Fin 64, t.hostOut i = bytes.getD i.val 0

/-- Bit `k` of a value as a 64-bit word (10_state.md R20). -/
def bit (v : Value) (k : Nat) : Bool := v.u64.testBit k

/-- Byte `j` of a limb, byte 0 the least significant: `x[8j+7:8j]`. -/
def limbByte (x : Limb) (j : Nat) : Byte := BitVec.ofNat 8 (x.toNat / 2 ^ (8 * j))

/-- The byte at offset `i` of an 8-byte field: the table of 20_memory.md R57. -/
def fieldByte (order : ByteOrder) (v : Value) (i : Nat) : Byte :=
  match order with
  | .be => if i < 4 then limbByte v.high (3 - i) else limbByte v.low (7 - i)
  | .le => if i < 4 then limbByte v.low i else limbByte v.high (i - 4)

/-- The ordinary base-10 numeral in ASCII, most significant digit first, no leading zero, `"0"` for zero. -/
def decimalNumeral (n : Nat) : List Byte :=
  if n = 0 then [0x30] else (Nat.digits 10 n).reverse.map fun d => BitVec.ofNat 8 (0x30 + d)

/-- The numeral of an integer, with a leading `'-'` (0x2D) where it is negative. -/
def signedNumeral (n : Int) : List Byte :=
  if n < 0 then 0x2D :: decimalNumeral n.natAbs else decimalNumeral n.natAbs

/-- Register `r` holds what `FROMINT` makes of the host integer `n` (40_construction.md R112). -/
def HoldsInt (s : State) (r : Reg) (n : Int) : Prop :=
  s.readReg r = valueOfSafeInt (decide (n < 0)) n.natAbs

/-- The safe-integer range (00_scope.md R14). -/
def Safe (n : Int) : Prop := n.natAbs ≤ 2 ^ 53 - 1

/-- `byterev(x)`: the four bytes of a limb reversed (20_memory.md R59). -/
def byterev (x : Limb) : Limb :=
  BitVec.ofNat 32 (x.toNat % 2 ^ 8 * 2 ^ 24 + x.toNat / 2 ^ 8 % 2 ^ 8 * 2 ^ 16 +
    x.toNat / 2 ^ 16 % 2 ^ 8 * 2 ^ 8 + x.toNat / 2 ^ 24 % 2 ^ 8)

/-! ## The opcode table -/

/-- match and mask of each row of 30_encoding.md R86, by R82: a word is a command's word when
`word & mask = match`. -/
def commandTable : List (Word × Word) :=
  [(0x10000000, 0xFF0FFFFF), (0x11000000, 0xFF0FFFFF), (0x20000000, 0xFF000FFF), (0x21000000, 0xFF000FFF),
    (0x22000000, 0xFF000FFF), (0x23000000, 0xFF00FFFF), (0x30000000, 0xFF00FF00), (0x31000000, 0xFF00FF00)] ++
  [(0x32000000, 0xFF00FF00), (0x33000000, 0xFF00FF00), (0x40000000, 0xFF000FFF), (0x41000000, 0xFF000FFF),
    (0x50000000, 0xFFF00FFF), (0x51000000, 0xFFF00FFF), (0x60000000, 0xFFF0FFFF), (0x61000000, 0xFFF0FFFF)] ++
  [(0x62000000, 0xFFF0FFFF), (0x63000000, 0xFFF0FFFF), (0x64000000, 0xFFF0FFFF), (0x70000000, 0xFFF0FFFF),
    (0x71000000, 0xFFF0FFFE), (0x72000000, 0xFF0FFFFE), (0x73000000, 0xFFFF0000), (0x74000000, 0xFFFF0000)]

/-- The word is a legal command word: some row matches it. -/
def LegalWord (w : Word) : Prop := ∃ row ∈ commandTable, w &&& row.2 = row.1

/-- The word is a legal `FROMLIMBS` or `FROMINT` word. -/
def LiteralHead (w : Word) : Prop := w &&& 0xFF0FFFFF = 0x10000000 ∨ w &&& 0xFF0FFFFF = 0x11000000

/-! ## The read/write table (10_state.md R35) -/

/-- The column v[rd]. -/
def destination : Instr → Option Reg
  | .fromlimbs rd _ _ => some rd
  | .fromint rd _ _ => some rd
  | .and rd _ _ => some rd
  | .or rd _ _ => some rd
  | .xor rd _ _ => some rd
  | .not rd _ => some rd
  | .shl rd _ _ => some rd
  | .shrz rd _ _ => some rd
  | .rotl rd _ _ => some rd
  | .rotr rd _ _ => some rd
  | .add rd _ _ => some rd
  | .sub rd _ _ => some rd
  | .dec rd _ => some rd
  | .ucmp _ _ => none
  | .scmp _ _ => none
  | .ustr _ => none
  | .sstr _ => none
  | .hex _ => none
  | .bstr _ => none
  | .bits _ => none
  | .bytes _ => none
  | .enc _ _ => none
  | .seek _ => none
  | .setlen _ => none

/-- The command is `UCMP` or `SCMP`. -/
def isCompare (i : Instr) : Prop := ∃ ra rb, i = .ucmp ra rb ∨ i = .scmp ra rb

/-- The command is one of the six that render into `OUT`. -/
def isRender (i : Instr) : Prop :=
  ∃ ra, i = .ustr ra ∨ i = .sstr ra ∨ i = .hex ra ∨ i = .bstr ra ∨ i = .bits ra ∨ i = .bytes ra

/-- The command is `ENC`. -/
def isEnc (i : Instr) : Prop := ∃ ra order, i = .enc ra order

/-- The command is `DEC`. -/
def isDec (i : Instr) : Prop := ∃ rd order, i = .dec rd order

/-- The command is `SEEK`. -/
def isSeek (i : Instr) : Prop := ∃ imm, i = .seek imm

/-- The command is `SETLEN`. -/
def isSetlen (i : Instr) : Prop := ∃ imm, i = .setlen imm

end Sys2Proof.Claims

section Statements

open Sys2Proof Sys2Proof.Machine Sys2Proof.Claims

/-! ## Encoding (30_encoding.md) -/

/-- R81, R82, R83, R86, R89: the decoder reads back every well-formed command, with every operand at every
value its encoding admits, and leaves the words behind it. -/
def Obligations.DecodeOfEncodeIsTheCommand : Prop :=
  ∀ (i : Instr) (rest : List Word), WellFormed i = true → decode (encode i ++ rest) = .command i rest

/-- R82, R87, R88: no two words stand for one command; a decoded command is well-formed and its encoding is
exactly the words it came from. -/
def Obligations.EncodeOfDecodeIsTheWords : Prop :=
  ∀ (ws : List Word) (i : Instr) (rest : List Word), decode ws = .command i rest →
    WellFormed i = true ∧ encode i ++ rest = ws

/-- R92: the worked encodings decode to the commands they stand for, and the illegal examples are illegal. -/
def Obligations.WorkedEncodingsDecode : Prop :=
  decode [0x40201000] = .command (.add 2 0 1) [] ∧ decode [0x22201000] = .command (.xor 2 0 1) [] ∧
  decode [0x23540000] = .command (.not 5 4) [] ∧ decode [0x31430020] = .command (.shrz 4 3 32) [] ∧
  decode [0x32100044] = .command (.rotl 1 0 68) [] ∧ decode [0x50001000] = .command (.ucmp 0 1) [] ∧
  decode [0x510FE000] = .command (.scmp 15 14) [] ∧ decode [0x60020000] = .command (.ustr 2) [] ∧
  decode [0x62020000] = .command (.hex 2) [] ∧ decode [0x70000000] = .command (.bytes 0) [] ∧
  decode [0x71000001] = .command (.enc 0 .le) [] ∧ decode [0x72300000] = .command (.dec 3 .be) [] ∧
  decode [0x73000000] = .command (.seek 0) [] ∧ decode [0x74000010] = .command (.setlen 16) [] ∧
  decode [0x10000000, 0xDEADBEEF, 0xBAAAAAAD] = .command (.fromlimbs 0 0xDEADBEEF 0xBAAAAAAD) [] ∧
  decode [0x11100000, 0x00000000, 0x0000002A] = .command (.fromint 1 false 42) [] ∧
  decode [0x11300000, 0x80000000, 0x00000020] = .command (.fromint 3 true 32) [] ∧
  decode [0x00000000] = .illegal .unknownOpcode 0x00000000 [] ∧
  decode [0x40201001] = .illegal .reservedBit 0x40201001 [] ∧
  decode [0x23541000] = .illegal .reservedBit 0x23541000 [] ∧
  decode [0x50101000] = .illegal .reservedBit 0x50101000 [] ∧
  decode [0x71000002] = .illegal .reservedBit 0x71000002 [] ∧
  decode [0x73010000] = .illegal .reservedBit 0x73010000 []

/-- R90: the assembler's field assignments, on a line of each row of its table, and of `FROMINT vd, n` on every
register and every `|n| <= 2^63 - 1`: the three words, the command word `0x11 << 24 | rd << 20` first. -/
def Obligations.AssemblerAssignsTheFields : Prop :=
  (assembleWords "ADD v2, v0, v1" = some [0x40201000] ∧ assembleWords "SUB v1, v2, v3" = some [0x41123000] ∧
    assembleWords "NOT v5, v4" = some [0x23540000] ∧ assembleWords "SHRZ v4, v3, #32" = some [0x31430020] ∧
    assembleWords "ROTL v1, v0, #68" = some [0x32100044] ∧ assembleWords "UCMP v0, v1" = some [0x50001000] ∧
    assembleWords "SCMP v15, v14" = some [0x510FE000] ∧ assembleWords "USTR v2" = some [0x60020000] ∧
    assembleWords "BYTES v0" = some [0x70000000] ∧ assembleWords "ENC.BE v5" = some [0x71050000] ∧
    assembleWords "ENC.LE v0" = some [0x71000001] ∧ assembleWords "DEC.BE v3" = some [0x72300000] ∧
    assembleWords "DEC.LE v10" = some [0x72A00001] ∧ assembleWords "SEEK #0" = some [0x73000000] ∧
    assembleWords "SETLEN #16" = some [0x74000010] ∧
    assembleWords "FROMLIMBS v0, 0xDEADBEEF, 0xBAAAAAAD" = some [0x10000000, 0xDEADBEEF, 0xBAAAAAAD] ∧
    assembleWords "FROMINT v1, 42" = some [0x11100000, 0x00000000, 0x0000002A] ∧
    assembleWords "FROMINT v3, -32" = some [0x11300000, 0x80000000, 0x00000020] ∧
    assembleWords "FROMINT v15, 0x7FFFFFFFFFFFFFFF" = some [0x11F00000, 0x7FFFFFFF, 0xFFFFFFFF] ∧
    assembleWords "FROMINT v0, -0" = some [0x11000000, 0x00000000, 0x00000000]) ∧
  ∀ (rd : Reg) (n : Int), n.natAbs ≤ 2 ^ 63 - 1 →
    ∃ word0 word1 word2, (fromintOfInt rd n).map encode = some [word0, word1, word2] ∧
      word0.toNat = 0x11 * 2 ^ 24 + rd.val * 2 ^ 20 ∧
      word1.toNat = (if n < 0 then 1 else 0) * 2 ^ 31 + n.natAbs / 2 ^ 32 ∧ word2.toNat = n.natAbs % 2 ^ 32

/-- R87: the decoder calls a word illegal exactly where no row of the opcode table matches it, whatever words
stand behind it, and takes no literal word then. -/
def Obligations.IllegalExactlyWhereNoRowMatches : Prop :=
  ∀ (w : Word) (rest : List Word), (∃ why, decode (w :: rest) = .illegal why w rest) ↔ ¬ LegalWord w

/-- R89: an illegal word is a command of one word; a legal `FROMLIMBS` or `FROMINT` word takes the next two
words whatever they are, and is truncated, the run stuck, where fewer follow; every other legal word is a
command of one word. -/
def Obligations.OpcodeTellsTheLength : Prop :=
  ∀ w : Word,
    (¬ LegalWord w → ∀ rest, ∃ why, decode (w :: rest) = .illegal why w rest) ∧
    (LiteralHead w →
      (∀ word1 word2 rest, ∃ i, decode (w :: word1 :: word2 :: rest) = .command i rest ∧
        literalWords i = [word1, word2]) ∧
      (∀ rest, rest.length < 2 → decode (w :: rest) = .truncated ∧
        ∀ s : State, s.halted = false → s.stream = w :: rest → s.runEnd = some .stuck)) ∧
    (LegalWord w → ¬ LiteralHead w → ∀ rest, ∃ i, decode (w :: rest) = .command i rest)

/-! ## The sequencer (00_scope.md, 10_state.md, 60_exceptions.md) -/

/-- R6, R24: where the head of the stream decodes to a command, a step of the running block is that command's
`exec` on the state with the command's words taken off the stream, and nothing around it. -/
def Obligations.StepRunsTheDecodedCommand : Prop :=
  ∀ (s : State) (i : Instr) (rest : List Word), s.halted = false → decode s.stream = .command i rest →
    step s = exec i { s with stream := rest }

/-- R24: advancing is removing the consumed words, 1 or 3, from the head of the stream. That the words of a command
that raises a fault are removed as well is the model's reading (DEDUCED, log 8). -/
def Obligations.StepRemovesOneOrThreeWords : Prop :=
  ∀ s t : State, step s = .next t →
    ∃ taken, s.stream = taken ++ t.stream ∧ (taken.length = 1 ∨ taken.length = 3)

/-- R212: an illegal word at a command position raises `ILLEGAL_COMMAND` (code 1), `FINFO` holds the word, no
other state changes, and no word behind it is consumed. That the illegal word itself is taken off the stream
(`t.stream = rest`) is the model's reading (DEDUCED, log 8). -/
def Obligations.IllegalWordRaisesIllegalCommand : Prop :=
  ∀ (s : State) (w : Word) (rest : List Word), s.halted = false → s.stream = w :: rest → ¬ LegalWord w →
    ∃ t, step s = .next t ∧ FaultEntered 1 w s t ∧ t.stream = rest

/-- R220: a halted block performs no step, also on words pushed later, and is never final. That `step` answers
the named stop `halted` is the model's form (log 5). -/
def Obligations.HaltedBlockPerformsNoStep : Prop :=
  ∀ s : State, statusFault s.status = true →
    step s = .fault .halted ∧ s.runEnd = some .faulted ∧
    ∀ words k, step (s.hostPush words) = .fault .halted ∧ runFor k (s.hostPush words) = s.hostPush words

/-- R28, R29, R221: no command clears `FAULT`, `CAUSE` or `FINFO`: `ENC` and `SETLEN` leave the three as they are or
write the fault of their own (`FAULT = 1`, the code, the command word), every other command leaves them; the
reset input clears all three. -/
def Obligations.OnlyResetClearsAFault : Prop :=
  (∀ (i : Instr) (s t : State), exec i s = .next t →
    (statusFault s.status = true → statusFault t.status = true) ∧
    ((statusFault t.status = statusFault s.status ∧ statusCause t.status = statusCause s.status ∧
        t.finfo = s.finfo) ∨
      (isEnc i ∧ statusFault t.status = true ∧ statusCause t.status = 2 ∧ encode i = [t.finfo]) ∨
      (isSetlen i ∧ statusFault t.status = true ∧ statusCause t.status = 3 ∧ encode i = [t.finfo]))) ∧
  ∀ s : State, statusFault s.hostReset.status = false ∧ statusCause s.hostReset.status = 0 ∧
    s.hostReset.finfo = 0

/-- R211: fault entry writes `FAULT`, `CAUSE` and `FINFO` and nothing else. -/
def Obligations.FaultEntryWritesThreeFields : Prop :=
  ∀ (s : State) (cause : Cause) (word : Word),
    FaultEntered cause.code word s (s.raiseFault cause word) ∧ (s.raiseFault cause word).stream = s.stream

/-- R8: from a state that meets the invariant, the run of any finite command stream ends, within one step a
word, in exactly one of the three ways: final (stream consumed, `FAULT = 0`), faulted (`FAULT = 1`), stuck (a
legal three-word command without its two literal words). That a stuck run leaves the words of the incomplete
command in the stream, where R8 says that the head word was taken, is the model's choice (DESIGN CHOICE,
log 7). -/
def Obligations.EveryRunEndsInOneOfThreeWays : Prop :=
  ∀ s : State, s.Inv →
    (s.runToEnd.runEnd = some .final ∧ s.runToEnd.stream = [] ∧ statusFault s.runToEnd.status = false) ∨
    (s.runToEnd.runEnd = some .faulted ∧ statusFault s.runToEnd.status = true) ∨
    (s.runToEnd.runEnd = some .stuck ∧ statusFault s.runToEnd.status = false ∧
      ∃ w words, s.runToEnd.stream = w :: words ∧ LiteralHead w ∧ words.length < 2)

/-- R27: what the host reads by control register number, zero-extended; a number that does not exist reads 0. -/
def Obligations.ReadoutByRegisterNumber : Prop :=
  ∀ s : State, s.hostControl 0 = s.status ∧ s.hostControl 1 = s.finfo ∧
    (s.hostControl 2).toNat = s.ord.toNat ∧ (s.hostControl 3).toNat = s.cur.toNat ∧
    (s.hostControl 4).toNat = s.len.toNat ∧ (s.hostControl 5).toNat = s.outlen.toNat ∧
    ∀ n, 6 ≤ n → s.hostControl n = 0

/-- R7, R14: the buffer load writes one byte of `BUF` while the stream is empty and no fault is raised, and is
refused otherwise (the refusal is the model's form of U14, log 12). -/
def Obligations.BufferLoadOnlyWhileIdle : Prop :=
  ∀ (s : State) (addr : Nat) (b : Byte),
    (s.stream = [] → s.halted = false → addr < s.cfg.bufSize →
      ∃ t, s.hostLoad addr b = some t ∧ Memory.read t.buf addr = b ∧ BytesSameOutside addr 1 s t ∧
        RestSame s t ∧ StatusSame s t ∧ CursorSame s t ∧ t.stream = s.stream) ∧
    (s.stream ≠ [] ∨ s.halted = true ∨ s.cfg.bufSize ≤ addr → s.hostLoad addr b = none)

/-! ## Reset and the invariant (70_reset_and_hazards.md, 10_state.md) -/

/-- R240: the reset input puts every register at its reset value, empties the command stream and keeps `BUF`;
the block is then idle, not halted, and performs the first command pushed. -/
def Obligations.ResetInputEstablishesTheResetValues : Prop :=
  ∀ s : State, (∀ r, s.hostReset.readReg r = ⟨0, 0⟩) ∧ s.hostReset.ord = 0 ∧ s.hostReset.status = 0 ∧
    s.hostReset.finfo = 0 ∧ s.hostReset.cur = 0 ∧ s.hostReset.len = 0 ∧ OutIs s.hostReset [] ∧
    BytesSame s s.hostReset ∧ s.hostReset.stream = [] ∧ s.hostReset.cfg = s.cfg ∧ s.hostReset.idle = true ∧
    ∀ words i rest, decode words = .command i rest →
      step (s.hostReset.hostPush words) = exec i { s.hostReset with stream := rest }

/-- The invariant of the state holds right after a power-up reset, for every legal `BUFSIZE` and every content
of `BUF`, and in `State.reset`; the host's ports (reset, push, buffer load) keep it. -/
def Obligations.InvariantHoldsAtResetAndAtThePorts : Prop :=
  State.reset.Inv ∧
  (∀ (cfg : Config) (buf : Memory), cfg.wf → Memory.wf buf → (∀ c ∈ buf, c.1 < cfg.bufSize) →
    (State.resetWith cfg buf).Inv) ∧
  ∀ s : State, s.Inv →
    s.hostReset.Inv ∧ (∀ words, (s.hostPush words).Inv) ∧ ∀ addr b t, s.hostLoad addr b = some t → t.Inv

/-- R5, R25, R28, R29, R30, R32, R50, R210: every step from a state that meets the invariant gives a state that
meets it: `LEN <= BUFSIZE`, `BUF` canonical and inside `BUFSIZE`, `ORD` a legal code, `OUT` zero from `OUTLEN`
on, `STATUS[31:5] = 0`, `CAUSE` and `FINFO` 0 without a fault. -/
def Obligations.EveryStepKeepsTheInvariant : Prop :=
  ∀ s t : State, s.Inv → step s = .next t → t.Inv

/-- R35: a command that completes writes nothing that the read/write table does not show; `ENC` stores into its
8 bytes at `CUR` only. -/
def Obligations.CommandsWriteOnlyWhatTheTableShows : Prop :=
  ∀ (i : Instr) (s t : State), exec i s = .next t →
    (∀ r, destination i ≠ some r → t.readReg r = s.readReg r) ∧
    (¬ isCompare i → t.ord = s.ord) ∧
    (¬ isDec i → statusDF t.status = statusDF s.status) ∧
    (¬ isEnc i → ¬ isDec i → ¬ isSeek i → t.cur = s.cur) ∧
    (¬ isEnc i → ¬ isSetlen i → t.len = s.len) ∧
    (¬ isRender i → OutSame s t) ∧
    (¬ isEnc i → BytesSame s t) ∧
    (isEnc i → BytesSameOutside s.cur.toNat 8 s t) ∧
    InputsSame s t ∧ statusReserved t.status = statusReserved s.status

/-! ## Primitives (00_scope.md, 10_state.md, 20_memory.md) -/

/-- R9: the limb shifts, defined for every count; for a count of 32 or more both give 0, for 0 both give `x`. -/
def Obligations.LimbShiftsAreMathematical : Prop :=
  ∀ (x : Limb) (k : Nat), (shl32 x k).toNat = x.toNat * 2 ^ k % 2 ^ 32 ∧ (shr32 x k).toNat = x.toNat / 2 ^ k ∧
    (32 ≤ k → shl32 x k = 0 ∧ shr32 x k = 0) ∧ shl32 x 0 = x ∧ shr32 x 0 = x

/-- R10, R11: the limb adder and subtractor against exact integers. -/
def Obligations.LimbAdderAndSubtractorAreExact : Prop :=
  ∀ (a b : Limb) (c : Bool),
    (addCarry a b c).1.toNat = (a.toNat + b.toNat + c.toNat) % 2 ^ 32 ∧
    (addCarry a b c).2.toNat = (a.toNat + b.toNat + c.toNat) / 2 ^ 32 ∧
    ((a.toNat : Int) - b.toNat - c.toNat < 0 →
      ((subBorrow a b c).1.toNat : Int) = (a.toNat : Int) - b.toNat - c.toNat + 2 ^ 32 ∧
        (subBorrow a b c).2 = true) ∧
    (0 ≤ (a.toNat : Int) - b.toNat - c.toNat →
      ((subBorrow a b c).1.toNat : Int) = (a.toNat : Int) - b.toNat - c.toNat ∧ (subBorrow a b c).2 = false)

/-- R23: sixteen registers, none hardwired: each reads what was last written to it, a write changes no other,
and each is `(0, 0)` at reset. -/
def Obligations.RegistersReadWhatWasWritten : Prop :=
  (∀ (s : State) (r : Reg) (v : Value), (s.writeReg r v).readReg r = v ∧ OnlyReg r s (s.writeReg r v)) ∧
  ∀ r, State.reset.readReg r = ⟨0, 0⟩

/-- R30: `OUT <- bytes` replaces the whole output buffer and zeroes its tail; at reset `OUTLEN` and all 64 bytes
are 0. -/
def Obligations.OutputAssignmentReplacesTheBuffer : Prop :=
  (State.reset.outlen = 0 ∧ ∀ i, State.reset.hostOut i = 0) ∧
  ∀ (s : State) (bytes : List Byte), bytes.length ≤ 64 →
    (∀ i : Fin 64, (s.setOut bytes).hostOut i = if h : i.val < bytes.length then bytes[i.val] else 0) ∧
    (s.setOut bytes).outlen.toNat = bytes.length ∧ (s.setOut bytes).outBytes = bytes ∧
    OnlyOut s (s.setOut bytes)

/-- R53, R54: inside `BUF`, `MemWrite` sets its bytes and no other, and `MemRead` returns the bytes there. -/
def Obligations.MemoryPrimitivesReadAndWriteBytes : Prop :=
  ∀ (s : State) (addr : Nat) (bytes : List Byte), addr + bytes.length ≤ s.cfg.bufSize →
    ∃ t, s.memWrite addr bytes = some t ∧
      (∀ i, (h : i < bytes.length) → Memory.read t.buf (addr + i) = bytes[i]) ∧
      BytesSameOutside addr bytes.length s t ∧
      RestSame s t ∧ StatusSame s t ∧ CursorSame s t ∧ t.stream = s.stream ∧
      s.memRead addr bytes.length = some ((List.range bytes.length).map fun i => Memory.read s.buf (addr + i))

/-- R55, R56: inside `BUF`, `MemRead32` puts the four bytes at the address together in the order named,
`MemWrite32` stores the four bytes of the limb in that order and no other byte, and reading back returns the
limb. -/
def Obligations.FieldPrimitivesFollowTheByteOrder : Prop :=
  ∀ (s : State) (addr : Nat) (x : Limb), addr + 4 ≤ s.cfg.bufSize →
    (∃ y, s.memRead32 addr .be = some y ∧
      y.toNat = (Memory.read s.buf addr).toNat * 2 ^ 24 + (Memory.read s.buf (addr + 1)).toNat * 2 ^ 16 +
        (Memory.read s.buf (addr + 2)).toNat * 2 ^ 8 + (Memory.read s.buf (addr + 3)).toNat) ∧
    (∃ y, s.memRead32 addr .le = some y ∧
      y.toNat = (Memory.read s.buf (addr + 3)).toNat * 2 ^ 24 + (Memory.read s.buf (addr + 2)).toNat * 2 ^ 16 +
        (Memory.read s.buf (addr + 1)).toNat * 2 ^ 8 + (Memory.read s.buf addr).toNat) ∧
    (∃ t, s.memWrite32 addr .be x = some t ∧
      (∀ i, i < 4 → Memory.read t.buf (addr + i) = limbByte x (3 - i)) ∧ BytesSameOutside addr 4 s t ∧
      t.memRead32 addr .be = some x) ∧
    (∃ t, s.memWrite32 addr .le x = some t ∧
      (∀ i, i < 4 → Memory.read t.buf (addr + i) = limbByte x i) ∧ BytesSameOutside addr 4 s t ∧
      t.memRead32 addr .le = some x)

/-! ## Construction (40_construction.md) -/

/-- R111: `FROMLIMBS` stores the two literal words verbatim and writes nothing else. -/
def Obligations.FromlimbsStoresTheWordsVerbatim : Prop :=
  ∀ (rd : Reg) (high low : Word) (s : State),
    ∃ t, exec (.fromlimbs rd high low) s = .next t ∧ t.readReg rd = ⟨high, low⟩ ∧ OnlyReg rd s t

/-- R112: in the safe range `FROMINT` writes the limbs of the magnitude, or for a set sign its two's complement:
both limbs complemented, 1 added to the low limb, the carry into the high limb. -/
def Obligations.FromintInTheSafeRange : Prop :=
  ∀ (rd : Reg) (sign : Bool) (mag : Nat) (s : State), mag ≤ 2 ^ 53 - 1 →
    ∃ t, exec (.fromint rd sign mag) s = .next t ∧
      (sign = false → (t.readReg rd).high.toNat = mag / 2 ^ 32 ∧ (t.readReg rd).low.toNat = mag % 2 ^ 32) ∧
      (sign = true →
        (t.readReg rd).low.toNat = (0xFFFFFFFF - mag % 2 ^ 32 + 1) % 2 ^ 32 ∧
        (t.readReg rd).high.toNat =
          (0xFFFFFFFF - mag / 2 ^ 32 + (0xFFFFFFFF - mag % 2 ^ 32 + 1) / 2 ^ 32) % 2 ^ 32) ∧
      OnlyReg rd s t

/-- The consequence R112 draws: in the safe range `u64(v[rd]) = n mod 2^64`. -/
def Obligations.FromintIsTheIntegerModulo : Prop :=
  ∀ (rd : Reg) (n : Int) (s : State), Safe n →
    ∃ t, exec (.fromint rd (decide (n < 0)) n.natAbs) s = .next t ∧ ((t.readReg rd).u64 : Int) = n % 2 ^ 64 ∧
      HoldsInt t rd n

/-- R113: outside the safe range `FROMINT` completes, raises nothing, writes no flag and nothing but `v[rd]`,
which takes the model's free value (U1; the counter it is applied to is the model's own, log 4). -/
def Obligations.FromintOutsideTheSafeRangeCompletes : Prop :=
  ∀ (rd : Reg) (sign : Bool) (mag : Nat) (s : State), 2 ^ 53 - 1 < mag →
    ∃ t, exec (.fromint rd sign mag) s = .next t ∧ t.readReg rd = Config.freeValue s.draws ∧
      t.draws = s.draws + 1 ∧ RegsSameBut rd s t ∧ t.ord = s.ord ∧ StatusSame s t ∧ CursorSame s t ∧
      OutSame s t ∧ BytesSame s t ∧ InputsSame s t

/-- R114: the laws of construction, for safe-range host integers `a`, `b`, those of `ADD` and `SUB` where the sum
(difference) is in the safe range too; `HoldsInt` is what `FROMINT` leaves in a register
(`FromintIsTheIntegerModulo`). The equality R114 draws without the proviso is
`SumOfConstructedIntegersIsModular`. -/
def Obligations.ConstructionLaws : Prop :=
  ∀ (s : State) (rd ra rb : Reg) (a b : Int), Safe a → Safe b → HoldsInt s ra a → HoldsInt s rb b →
    (∃ t, exec (.add rd ra rb) s = .next t ∧ (Safe (a + b) → HoldsInt t rd (a + b))) ∧
    (∃ t, exec (.sub rd ra rb) s = .next t ∧ (Safe (a - b) → HoldsInt t rd (a - b))) ∧
    (∃ t, exec (.sstr ra) s = .next t ∧ OutIs t (signedNumeral a)) ∧
    (0 ≤ a → 0 ≤ b → ∃ t, exec (.ucmp ra rb) s = .next t ∧
      t.ord = if a < b then 1 else if a = b then 0 else 2) ∧
    (∃ t, exec (.scmp ra rb) s = .next t ∧ t.ord = if a < b then 1 else if a = b then 0 else 2)

/-! ## Bitwise (41_bitwise.md) -/

/-- R121, R122, R123: `AND`, `OR`, `XOR` combine the two limbs independently and write `v[rd]` only. -/
def Obligations.AndOrXorActLimbByLimb : Prop :=
  ∀ (rd ra rb : Reg) (s : State),
    (∃ t, exec (.and rd ra rb) s = .next t ∧
      t.readReg rd = ⟨(s.readReg ra).high &&& (s.readReg rb).high, (s.readReg ra).low &&& (s.readReg rb).low⟩ ∧
      OnlyReg rd s t) ∧
    (∃ t, exec (.or rd ra rb) s = .next t ∧
      t.readReg rd = ⟨(s.readReg ra).high ||| (s.readReg rb).high, (s.readReg ra).low ||| (s.readReg rb).low⟩ ∧
      OnlyReg rd s t) ∧
    (∃ t, exec (.xor rd ra rb) s = .next t ∧
      t.readReg rd = ⟨(s.readReg ra).high ^^^ (s.readReg rb).high, (s.readReg ra).low ^^^ (s.readReg rb).low⟩ ∧
      OnlyReg rd s t)

/-- R124: `NOT` inverts every bit of both limbs, which is `M32` minus each limb, and writes `v[rd]` only. -/
def Obligations.NotInvertsEveryBit : Prop :=
  ∀ (rd ra : Reg) (s : State),
    ∃ t, exec (.not rd ra) s = .next t ∧
      (t.readReg rd).high.toNat = 0xFFFFFFFF - (s.readReg ra).high.toNat ∧
      (t.readReg rd).low.toNat = 0xFFFFFFFF - (s.readReg ra).low.toNat ∧
      (∀ k, k < 64 → bit (t.readReg rd) k = !bit (s.readReg ra) k) ∧ OnlyReg rd s t

/-- R125: the Boolean-algebra laws on whole values, for the functions whose values `AND`, `OR`, `XOR` and `NOT`
write. -/
def Obligations.BooleanAlgebraLaws : Prop :=
  (∀ (rd ra rb : Reg) (s : State),
    exec (.and rd ra rb) s = .next (s.writeReg rd (andValue (s.readReg ra) (s.readReg rb))) ∧
    exec (.or rd ra rb) s = .next (s.writeReg rd (orValue (s.readReg ra) (s.readReg rb))) ∧
    exec (.xor rd ra rb) s = .next (s.writeReg rd (xorValue (s.readReg ra) (s.readReg rb))) ∧
    exec (.not rd ra) s = .next (s.writeReg rd (notValue (s.readReg ra)))) ∧
  ∀ a b c d : Value,
    andValue a (orValue a b) = a ∧ orValue a (andValue a b) = a ∧
    andValue a (orValue b c) = orValue (andValue a b) (andValue a c) ∧
    andValue a (xorValue b c) = xorValue (andValue a b) (andValue a c) ∧
    orValue a (andValue b c) = andValue (orValue a b) (orValue a c) ∧
    notValue (andValue a b) = orValue (notValue a) (notValue b) ∧
    notValue (orValue a b) = andValue (notValue a) (notValue b) ∧
    andValue (xorValue a b) (xorValue c d) =
      xorValue (xorValue (xorValue (andValue a c) (andValue a d)) (andValue b c)) (andValue b d)

/-! ## Shift and rotate (42_shift_rotate.md) -/

/-- R131: `SHL` moves the 64-bit value `n` positions toward the most significant end, zeros entering at bit 0,
for every `n`. -/
def Obligations.ShlMovesBitsUp : Prop :=
  ∀ (rd ra : Reg) (n : Nat) (s : State),
    ∃ t, exec (.shl rd ra n) s = .next t ∧
      (∀ k, k < 64 → bit (t.readReg rd) k = (decide (n ≤ k) && bit (s.readReg ra) (k - n))) ∧ OnlyReg rd s t

/-- R135: `SHRZ` moves the 64-bit value `n` positions toward the least significant end, zeros entering at bit
63, for every `n`. -/
def Obligations.ShrzMovesBitsDown : Prop :=
  ∀ (rd ra : Reg) (n : Nat) (s : State),
    ∃ t, exec (.shrz rd ra n) s = .next t ∧
      (∀ k, k < 64 → bit (t.readReg rd) k = (decide (k + n < 64) && bit (s.readReg ra) (k + n))) ∧
      OnlyReg rd s t

/-- R139: `ROTL` is the 64-bit rotation toward the most significant end, `n` reduced modulo 64. -/
def Obligations.RotlMovesBitsAroundUp : Prop :=
  ∀ (rd ra : Reg) (n : Nat) (s : State),
    ∃ t, exec (.rotl rd ra n) s = .next t ∧
      (∀ k, k < 64 → bit (t.readReg rd) ((k + n) % 64) = bit (s.readReg ra) k) ∧ OnlyReg rd s t

/-- R144: `ROTR` is the 64-bit rotation toward the least significant end, `n` reduced modulo 64. -/
def Obligations.RotrMovesBitsAroundDown : Prop :=
  ∀ (rd ra : Reg) (n : Nat) (s : State),
    ∃ t, exec (.rotr rd ra n) s = .next t ∧
      (∀ k, k < 64 → bit (t.readReg rd) k = bit (s.readReg ra) ((k + n) % 64)) ∧ OnlyReg rd s t

/-- The result laws R131, R135, R139 and R144 draw, for every `n`: multiplication modulo `2^64`, floor division,
and the two rotations in integers; and the relations R148 draws between the four. They are laws of the
functions whose values the four commands write. -/
def Obligations.ShiftsAndRotatesAsIntegers : Prop :=
  (∀ (rd ra : Reg) (n : Nat) (s : State),
    exec (.shl rd ra n) s = .next (s.writeReg rd (shlValue (s.readReg ra) n)) ∧
    exec (.shrz rd ra n) s = .next (s.writeReg rd (shrzValue (s.readReg ra) n)) ∧
    exec (.rotl rd ra n) s = .next (s.writeReg rd (rotlValue (s.readReg ra) n)) ∧
    exec (.rotr rd ra n) s = .next (s.writeReg rd (rotrValue (s.readReg ra) n))) ∧
  ∀ (v : Value) (n : Nat),
    (shlValue v n).u64 = v.u64 * 2 ^ n % 2 ^ 64 ∧
    (shrzValue v n).u64 = v.u64 / 2 ^ n ∧
    (rotlValue v n).u64 = v.u64 * 2 ^ (n % 64) % 2 ^ 64 + v.u64 / 2 ^ (64 - n % 64) ∧
    (rotrValue v n).u64 =
      (if n % 64 = 0 then v.u64 else v.u64 / 2 ^ (n % 64) + v.u64 * 2 ^ (64 - n % 64) % 2 ^ 64) ∧
    rotlValue v n = rotrValue v ((64 - n % 64) % 64) ∧
    (0 < n → n < 64 → rotlValue v n = orValue (shlValue v n) (shrzValue v (64 - n))) ∧
    (shrzValue (shlValue v n) n).u64 = v.u64 % 2 ^ (64 - min n 64) ∧
    shlValue v 64 = ⟨0, 0⟩ ∧ rotlValue v 64 = v

/-- R147: a rotate left after a rotate right by the same amount gives the value back, and the other way about. -/
def Obligations.RotatesUndoEachOther : Prop :=
  ∀ (r1 r2 ra : Reg) (n : Nat) (s : State),
    (∃ t u, exec (.rotr r1 ra n) s = .next t ∧ exec (.rotl r2 r1 n) t = .next u ∧
      u.readReg r2 = s.readReg ra) ∧
    (∃ t u, exec (.rotl r1 ra n) s = .next t ∧ exec (.rotr r2 r1 n) t = .next u ∧
      u.readReg r2 = s.readReg ra)

/-! ## Arithmetic (43_arithmetic.md) -/

/-- R151: `ADD` adds the low limbs, carries 1 into the high limbs where the low sum exceeds `0xFFFFFFFF`, and
discards the carry out of the top; no flag, nothing but `v[rd]`. -/
def Obligations.AddCarriesIntoTheHighLimb : Prop :=
  ∀ (rd ra rb : Reg) (s : State),
    ∃ t, exec (.add rd ra rb) s = .next t ∧
      (t.readReg rd).low.toNat = ((s.readReg ra).low.toNat + (s.readReg rb).low.toNat) % 2 ^ 32 ∧
      (t.readReg rd).high.toNat = ((s.readReg ra).high.toNat + (s.readReg rb).high.toNat +
        if (s.readReg ra).low.toNat + (s.readReg rb).low.toNat > 0xFFFFFFFF then 1 else 0) % 2 ^ 32 ∧
      OnlyReg rd s t

/-- R153: `SUB` subtracts the low limbs, borrows 1 from the high limbs where the low difference is negative, and
discards the borrow out of the top; no flag, nothing but `v[rd]`. -/
def Obligations.SubBorrowsFromTheHighLimb : Prop :=
  ∀ (rd ra rb : Reg) (s : State),
    ∃ t, exec (.sub rd ra rb) s = .next t ∧
      ((t.readReg rd).low.toNat : Int) = ((s.readReg ra).low.toNat - (s.readReg rb).low.toNat : Int) % 2 ^ 32 ∧
      ((t.readReg rd).high.toNat : Int) = ((s.readReg ra).high.toNat - (s.readReg rb).high.toNat -
        (if (s.readReg ra).low.toNat < (s.readReg rb).low.toNat then 1 else 0) : Int) % 2 ^ 32 ∧
      OnlyReg rd s t

/-- R150: `ADD` and `SUB` are total and exactly reproduce 64-bit modular arithmetic, on whole values; each writes
`v[rd]` only, whichever of the three registers coincide. -/
def Obligations.AddAndSubAreModularArithmetic : Prop :=
  ∀ (rd ra rb : Reg) (s : State),
    (∃ t, exec (.add rd ra rb) s = .next t ∧
      (t.readReg rd).u64 = ((s.readReg ra).u64 + (s.readReg rb).u64) % 2 ^ 64 ∧ OnlyReg rd s t) ∧
    (∃ t, exec (.sub rd ra rb) s = .next t ∧
      ((t.readReg rd).u64 : Int) = ((s.readReg ra).u64 - (s.readReg rb).u64 : Int) % 2 ^ 64 ∧ OnlyReg rd s t)

/-! ## Comparison (44_comparison.md) -/

/-- R161: `UCMP` writes `ORD` by the lexicographic comparison of `(high, low)`, and nothing else. -/
def Obligations.UcmpComparesLexicographically : Prop :=
  ∀ (ra rb : Reg) (s : State),
    ∃ t, exec (.ucmp ra rb) s = .next t ∧
      (t.ord = 1 ↔ (s.readReg ra).high.toNat < (s.readReg rb).high.toNat ∨
        (s.readReg ra).high.toNat = (s.readReg rb).high.toNat ∧
          (s.readReg ra).low.toNat < (s.readReg rb).low.toNat) ∧
      (t.ord = 2 ↔ (s.readReg rb).high.toNat < (s.readReg ra).high.toNat ∨
        (s.readReg ra).high.toNat = (s.readReg rb).high.toNat ∧
          (s.readReg rb).low.toNat < (s.readReg ra).low.toNat) ∧
      (t.ord = 0 ↔ s.readReg ra = s.readReg rb) ∧ OnlyOrd s t

/-- R163: `SCMP` decides by the sign bits where they differ (the clear one is greater), else as `UCMP` does, and
writes nothing else. -/
def Obligations.ScmpTestsTheSignsFirst : Prop :=
  ∀ (ra rb : Reg) (s : State),
    ∃ t, exec (.scmp ra rb) s = .next t ∧
      ((s.readReg ra).high &&& 0x80000000 = 0 → (s.readReg rb).high &&& 0x80000000 ≠ 0 → t.ord = 2) ∧
      ((s.readReg ra).high &&& 0x80000000 ≠ 0 → (s.readReg rb).high &&& 0x80000000 = 0 → t.ord = 1) ∧
      ((s.readReg ra).high &&& 0x80000000 = (s.readReg rb).high &&& 0x80000000 →
        ∃ u, exec (.ucmp ra rb) s = .next u ∧ t.ord = u.ord) ∧ OnlyOrd s t

/-- The result laws R161 and R163 draw: `UCMP` orders the unsigned readings and `SCMP` the signed readings. -/
def Obligations.ComparesOrderTheReadings : Prop :=
  ∀ (ra rb : Reg) (s : State),
    (∃ t, exec (.ucmp ra rb) s = .next t ∧
      t.ord = if (s.readReg ra).u64 < (s.readReg rb).u64 then 1
        else if (s.readReg ra).u64 = (s.readReg rb).u64 then 0 else 2) ∧
    (∃ t, exec (.scmp ra rb) s = .next t ∧
      t.ord = if (s.readReg ra).s64 < (s.readReg rb).s64 then 1
        else if (s.readReg ra).s64 = (s.readReg rb).s64 then 0 else 2)

/-- R160: `UCMP` and `SCMP` write `ORD`, and nothing else, with the three-way ordering of the two sources; both
orderings are total (one of the three outcomes), reflexive, antisymmetric and transitive. -/
def Obligations.OrderingsAreTotalOrders : Prop :=
  (∀ (ra rb : Reg) (s : State),
    (∃ t, exec (.ucmp ra rb) s = .next t ∧ t.ord = ucmp (s.readReg ra) (s.readReg rb) ∧ OnlyOrd s t) ∧
    (∃ t, exec (.scmp ra rb) s = .next t ∧ t.ord = scmp (s.readReg ra) (s.readReg rb) ∧ OnlyOrd s t)) ∧
  ∀ cmp, cmp = ucmp ∨ cmp = scmp → ∀ a b c : Value,
    (cmp a b = 0 ∨ cmp a b = 1 ∨ cmp a b = 2) ∧ cmp a a = 0 ∧ (cmp a b = 0 → a = b) ∧
    (cmp a b = 1 ↔ cmp b a = 2) ∧ (cmp a b = 1 → cmp b c = 1 → cmp a c = 1)

/-! ## String conversion (45_string_conversion.md) -/

/-- R171: `USTR` puts the canonical unsigned decimal string of `u64(v[ra])` into `OUT`, and writes nothing
else. -/
def Obligations.UstrRendersTheUnsignedNumeral : Prop :=
  ∀ (ra : Reg) (s : State),
    ∃ t, exec (.ustr ra) s = .next t ∧ OutIs t (decimalNumeral (s.readReg ra).u64) ∧ OnlyOut s t

/-- R174: `SSTR` puts the decimal string of `s64(v[ra])` into `OUT`, with a leading `'-'` where it is negative,
and writes nothing else. -/
def Obligations.SstrRendersTheSignedNumeral : Prop :=
  ∀ (ra : Reg) (s : State),
    ∃ t, exec (.sstr ra) s = .next t ∧ OutIs t (signedNumeral (s.readReg ra).s64) ∧ OnlyOut s t

/-- The properties R172 and R173 draw. Of the digit loop, whatever digits it has found: it stops exactly at a
magnitude below 10, with the last digit in front; from 10 on, one step puts the magnitude's remainder by 10 in
front and goes on with limbs whose magnitude is the quotient by 10, where `combined` is at most
`9 * 2^32 + M32`; 19 steps are enough for every value. `USTR`'s string has 1 to 20 characters and `SSTR`'s at
most 20; `negate` is two's-complement negation, 0 and `-2^63` its own. -/
def Obligations.DigitLoopAndNegation : Prop :=
  (∀ (fuel : Nat) (v : Value) (str : List Byte),
    (v.u64 < 10 → ustrLoop (fuel + 1) v.high v.low str = BitVec.ofNat 8 (0x30 + v.u64) :: str) ∧
    (10 ≤ v.u64 → ∃ (v' : Value) (combined : Nat),
      ustrLoop (fuel + 1) v.high v.low str =
        ustrLoop fuel v'.high v'.low (BitVec.ofNat 8 (0x30 + v.u64 % 10) :: str) ∧
      v'.u64 = v.u64 / 10 ∧ combined = v.high.toNat % 10 * 2 ^ 32 + v.low.toNat ∧
      v'.high.toNat = v.high.toNat / 10 ∧ v'.low.toNat = combined / 10 ∧ v.u64 % 10 = combined % 10 ∧
      combined ≤ 42949672959)) ∧
  (∀ (v : Value) (fuel : Nat), 19 ≤ fuel → ustrLoop fuel v.high v.low [] = ustrOf v) ∧
  (∀ v : Value, 1 ≤ (ustrOf v).length ∧ (ustrOf v).length ≤ 20 ∧ (sstrOf v).length ≤ 20) ∧
  (∀ v : Value, (negateValue v).u64 = (2 ^ 64 - v.u64) % 2 ^ 64) ∧
  negateValue ⟨0, 0⟩ = ⟨0, 0⟩ ∧ negateValue ⟨0x80000000, 0⟩ = ⟨0x80000000, 0⟩

/-- R177, R176: `HEX` puts 16 lowercase hex digits into `OUT`, the most significant nibble of `high` first, and
writes nothing else. -/
def Obligations.HexRendersEveryNibble : Prop :=
  ∀ (ra : Reg) (s : State),
    ∃ t, exec (.hex ra) s = .next t ∧ t.outlen.toNat = 16 ∧
      (∀ i : Fin 64, i.val < 16 → (t.hostOut i).toNat =
        if (s.readReg ra).u64 / 16 ^ (15 - i.val) % 16 ≤ 9
        then 0x30 + (s.readReg ra).u64 / 16 ^ (15 - i.val) % 16
        else 0x61 + ((s.readReg ra).u64 / 16 ^ (15 - i.val) % 16 - 10)) ∧
      (∀ i : Fin 64, 16 ≤ i.val → t.hostOut i = 0) ∧ OnlyOut s t

/-- R178, R179, R180: `BSTR` and `BITS` render the 64 bits, bit 63 first: as the characters `'0'` and `'1'`, and
as the bytes 0x00 and 0x01; each writes nothing else. -/
def Obligations.BstrAndBitsRenderEveryBit : Prop :=
  ∀ (ra : Reg) (s : State),
    (∃ t, exec (.bstr ra) s = .next t ∧ t.outlen.toNat = 64 ∧
      (∀ i : Fin 64, t.hostOut i = if bit (s.readReg ra) (63 - i.val) then 0x31 else 0x30) ∧ OnlyOut s t) ∧
    (∃ t, exec (.bits ra) s = .next t ∧ t.outlen.toNat = 64 ∧
      (∀ i : Fin 64, t.hostOut i = if bit (s.readReg ra) (63 - i.val) then 0x01 else 0x00) ∧ OnlyOut s t)

/-! ## Byte serialization (46_byte_serialization.md) -/

/-- R191: `BYTES` emits the 4 bytes of `high` then the 4 bytes of `low`, most significant byte first, and does
not touch `BUF`, `CUR` or `LEN`. -/
def Obligations.BytesEmitsHighThenLow : Prop :=
  ∀ (ra : Reg) (s : State),
    ∃ t, exec (.bytes ra) s = .next t ∧ t.outlen.toNat = 8 ∧
      (∀ i : Fin 64, i.val < 4 → t.hostOut i = limbByte (s.readReg ra).high (3 - i.val)) ∧
      (∀ i : Fin 64, 4 ≤ i.val → i.val < 8 → t.hostOut i = limbByte (s.readReg ra).low (7 - i.val)) ∧
      (∀ i : Fin 64, 8 ≤ i.val → t.hostOut i = 0) ∧ OnlyOut s t

/-- R194, R213: where the 8 bytes fit below `BUFSIZE`, `ENC` stores them at `CUR` in the order it names (the
table of R57), moves `CUR` past them and raises `LEN` to the new cursor where that is larger, and every other
byte and all else stays; where `CUR + 8 > BUFSIZE` it raises `ENCODE_OVERRUN` (code 2) before any byte is
written, with the `ENC` command word in `FINFO` and the offending cursor still in `CUR`. `BUFSIZE <= 65535`
(R5) is the premise on the parameter. -/
def Obligations.EncStoresTheFieldOrRaisesOverrun : Prop :=
  ∀ (ra : Reg) (order : ByteOrder) (s : State), s.cfg.wf →
    (s.cur.toNat + 8 ≤ s.cfg.bufSize →
      ∃ t, exec (.enc ra order) s = .next t ∧
        (∀ i, i < 8 → Memory.read t.buf (s.cur.toNat + i) = fieldByte order (s.readReg ra) i) ∧
        BytesSameOutside s.cur.toNat 8 s t ∧ t.cur.toNat = s.cur.toNat + 8 ∧
        t.len.toNat = max s.len.toNat (s.cur.toNat + 8) ∧ StatusSame s t ∧ RestSame s t ∧ t.stream = s.stream) ∧
    (s.cfg.bufSize < s.cur.toNat + 8 →
      ∃ t word, exec (.enc ra order) s = .next t ∧ encode (.enc ra order) = [word] ∧ FaultEntered 2 word s t ∧
        t.stream = s.stream)

/-- R196: with at least 8 bytes remaining `DEC` reads the field at `CUR` in the order it names, moves `CUR` past
it and clears `DF`; with fewer it sets `DF` and changes nothing else. `LEN <= BUFSIZE` (R32) is the
premise. -/
def Obligations.DecReadsTheFieldOrReportsFailure : Prop :=
  ∀ (rd : Reg) (order : ByteOrder) (s : State), s.len.toNat ≤ s.cfg.bufSize →
    ∃ t, exec (.dec rd order) s = .next t ∧
      (s.cur.toNat + 8 ≤ s.len.toNat →
        (∀ i, i < 8 → Memory.read s.buf (s.cur.toNat + i) = fieldByte order (t.readReg rd) i) ∧
        t.cur.toNat = s.cur.toNat + 8 ∧ statusDF t.status = false ∧ RegsSameBut rd s t) ∧
      (s.len.toNat < s.cur.toNat + 8 → t.cur = s.cur ∧ statusDF t.status = true ∧ RegsSame s t) ∧
      t.len = s.len ∧ statusFault t.status = statusFault s.status ∧
      statusCause t.status = statusCause s.status ∧ statusReserved t.status = statusReserved s.status ∧
      t.finfo = s.finfo ∧ t.ord = s.ord ∧ OutSame s t ∧ BytesSame s t ∧ InputsSame s t ∧ t.draws = s.draws

/-- R197: `SEEK` sets the cursor to any 16-bit value and writes nothing else. -/
def Obligations.SeekSetsTheCursor : Prop :=
  ∀ (imm : BitVec 16) (s : State),
    ∃ t, exec (.seek imm) s = .next t ∧ t.cur = imm ∧ t.len = s.len ∧ StatusSame s t ∧ BytesSame s t ∧
      RestSame s t ∧ t.stream = s.stream

/-- R198, R214: `SETLEN` sets `LEN` to an immediate not above `BUFSIZE` and writes nothing else; above it, it
raises `BAD_LENGTH` (code 3), `LEN` unchanged and the command word in `FINFO`. -/
def Obligations.SetlenSetsTheLengthOrFaults : Prop :=
  ∀ (imm : BitVec 16) (s : State),
    (imm.toNat ≤ s.cfg.bufSize →
      ∃ t, exec (.setlen imm) s = .next t ∧ t.len = imm ∧ t.cur = s.cur ∧ StatusSame s t ∧ BytesSame s t ∧
        RestSame s t ∧ t.stream = s.stream) ∧
    (s.cfg.bufSize < imm.toNat →
      ∃ t word, exec (.setlen imm) s = .next t ∧ encode (.setlen imm) = [word] ∧ FaultEntered 3 word s t ∧
        t.stream = s.stream)

/-- R199: `ENC`, `SEEK` back, `DEC` in one order gives the value back, and `BYTES` puts into `OUT` what `ENC.BE`
puts into `BUF`. -/
def Obligations.EncodeDecodeRoundTrip : Prop :=
  ∀ (ra rd : Reg) (order : ByteOrder) (s : State), s.cfg.wf → s.cur.toNat + 8 ≤ s.cfg.bufSize →
    (∃ t u w, exec (.enc ra order) s = .next t ∧ exec (.seek s.cur) t = .next u ∧
      exec (.dec rd order) u = .next w ∧ w.readReg rd = s.readReg ra ∧ w.cur.toNat = s.cur.toNat + 8 ∧
      statusDF w.status = false) ∧
    (∃ t u, exec (.enc ra .be) s = .next t ∧ exec (.bytes ra) s = .next u ∧
      ∀ i : Fin 64, i.val < 8 → u.hostOut i = Memory.read t.buf (s.cur.toNat + i.val))

/-- The consequence R59 draws: a field written in one order and read in the other comes back with its limbs
exchanged and the bytes of each reversed. -/
def Obligations.MixedOrderReversesTheBytes : Prop :=
  ∀ (ra rd : Reg) (o1 o2 : ByteOrder) (s : State), o1 ≠ o2 → s.cfg.wf → s.cur.toNat + 8 ≤ s.cfg.bufSize →
    ∃ t u w, exec (.enc ra o1) s = .next t ∧ exec (.seek s.cur) t = .next u ∧ exec (.dec rd o2) u = .next w ∧
      w.readReg rd = ⟨byterev (s.readReg ra).low, byterev (s.readReg ra).high⟩

/-! ## Construction and arithmetic together (40_construction.md) -/

/-- The equality R114 draws, which needs no proviso on the sum or the difference: `ADD` and `SUB` of two
constructed safe-range integers are `(a + b) mod 2^64` and `(a - b) mod 2^64`. -/
def Obligations.SumOfConstructedIntegersIsModular : Prop :=
  ∀ (s : State) (rd ra rb : Reg) (a b : Int), Safe a → Safe b → HoldsInt s ra a → HoldsInt s rb b →
    (∃ t, exec (.add rd ra rb) s = .next t ∧ ((t.readReg rd).u64 : Int) = (a + b) % 2 ^ 64 ∧ OnlyReg rd s t) ∧
    (∃ t, exec (.sub rd ra rb) s = .next t ∧ ((t.readReg rd).u64 : Int) = (a - b) % 2 ^ 64 ∧ OnlyReg rd s t)

end Statements
end

