-- ==== Sys2Proof/Laws/Limb.lean ====
section
/-!
SUPPORT. The limb primitives and the engines against exact integers: one law a function, which proofs cite instead of
unfolding it.
-/

namespace Sys2Proof

/-! ## Readings of a value -/

theorem Value.u64_lt (v : Value) : v.u64 < 2 ^ 64 := by
  have := v.high.isLt
  have := v.low.isLt
  unfold Value.u64
  omega

theorem Value.high_toNat (v : Value) : v.high.toNat = v.u64 / 2 ^ 32 := by
  have := v.low.isLt
  unfold Value.u64
  omega

theorem Value.low_toNat (v : Value) : v.low.toNat = v.u64 % 2 ^ 32 := by
  have := v.low.isLt
  unfold Value.u64
  omega

/-- The unsigned reading determines the value (10_state.md R20). -/
theorem Value.ext_u64 {v w : Value} (h : v.u64 = w.u64) : v = w := by
  obtain ⟨vh, vl⟩ := v
  obtain ⟨wh, wl⟩ := w
  have hh : vh = wh := BitVec.eq_of_toNat_eq (by
    rw [Value.high_toNat ⟨vh, vl⟩, Value.high_toNat ⟨wh, wl⟩, h])
  have hl : vl = wl := BitVec.eq_of_toNat_eq (by
    rw [Value.low_toNat ⟨vh, vl⟩, Value.low_toNat ⟨wh, wl⟩, h])
  rw [hh, hl]

/-- A bit of the unsigned reading is a bit of one limb (10_state.md R20). -/
theorem Value.testBit_u64 (v : Value) (k : Nat) :
    v.u64.testBit k = if k < 32 then v.low.getLsbD k else v.high.getLsbD (k - 32) := by
  have : v.u64 = 2 ^ 32 * v.high.toNat + v.low.toNat := by unfold Value.u64; omega
  rw [this, Nat.testBit_two_pow_mul_add _ v.low.isLt]
  rfl

theorem Value.signBit_iff (v : Value) : v.signBit = true ↔ 2 ^ 63 ≤ v.u64 := by
  have hh := v.high.isLt
  have hl := v.low.isLt
  have : v.signBit = decide (2 ^ 31 ≤ v.high.toNat) := by
    rw [Value.signBit, BitVec.getLsbD, Nat.testBit_eq_decide_div_mod_eq]
    congr 1
    simp only [eq_iff_iff]
    omega
  rw [this, decide_eq_true_iff]
  unfold Value.u64
  omega

/-- The signed reading is the representative of the unsigned one in `[-2^63, 2^63)` (10_state.md R21). -/
theorem Value.s64_eq (v : Value) : v.s64 = if 2 ^ 63 ≤ v.u64 then (v.u64 : Int) - 2 ^ 64 else (v.u64 : Int) := by
  unfold Value.s64
  by_cases h : v.signBit = true
  · rw [if_pos h, if_pos (v.signBit_iff.mp h)]
  · rw [if_neg h, if_neg (mt v.signBit_iff.mpr h)]

namespace Machine

/-! ## Limb primitives -/

/-- 00_scope.md R9. -/
@[simp] theorem shl32_toNat (x : Limb) (k : Nat) : (shl32 x k).toNat = x.toNat * 2 ^ k % 2 ^ 32 := by
  simp [shl32]

/-- 00_scope.md R9. -/
@[simp] theorem shr32_toNat (x : Limb) (k : Nat) : (shr32 x k).toNat = x.toNat / 2 ^ k := by
  have : x.toNat / 2 ^ k < 2 ^ 32 := Nat.lt_of_le_of_lt (Nat.div_le_self ..) x.isLt
  rw [shr32, BitVec.toNat_ofNat, Nat.mod_eq_of_lt this]

/-- The limb shifts are those of bit vectors, which are mathematical for every count too. -/
theorem shl32_eq (x : Limb) (k : Nat) : shl32 x k = x <<< k := by
  apply BitVec.eq_of_toNat_eq
  simp [BitVec.toNat_shiftLeft, Nat.shiftLeft_eq]

theorem shr32_eq (x : Limb) (k : Nat) : shr32 x k = x >>> k := by
  apply BitVec.eq_of_toNat_eq
  simp [BitVec.toNat_ushiftRight, Nat.shiftRight_eq_div_pow]

/-- 00_scope.md R10. -/
theorem addCarry_spec (a b : Limb) (c : Bool) :
    (addCarry a b c).1.toNat = (a.toNat + b.toNat + c.toNat) % 2 ^ 32 ∧
    (addCarry a b c).2.toNat = (a.toNat + b.toNat + c.toNat) / 2 ^ 32 := by
  have ha := a.isLt
  have hb := b.isLt
  have hc := c.toNat_le
  refine ⟨by simp [addCarry], ?_⟩
  simp only [addCarry]
  by_cases h : a.toNat + b.toNat + c.toNat > 0xFFFFFFFF
  · simp only [h, decide_true, Bool.toNat_true]; omega
  · simp only [h, decide_false, Bool.toNat_false]; omega

/-- 00_scope.md R11. -/
theorem subBorrow_spec (a b : Limb) (c : Bool) :
    ((subBorrow a b c).1.toNat : Int) = ((a.toNat : Int) - b.toNat - c.toNat) % 2 ^ 32 ∧
    ((subBorrow a b c).2.toNat : Int) = if (a.toNat : Int) - b.toNat - c.toNat < 0 then 1 else 0 := by
  have ha := a.isLt
  have hb := b.isLt
  have hc := c.toNat_le
  simp only [subBorrow]
  split
  · refine ⟨?_, by simp⟩
    simp only [BitVec.toNat_ofInt]
    omega
  · refine ⟨?_, by simp⟩
    simp only [BitVec.toNat_ofInt]
    omega

/-! ## Arithmetic -/

/-- 43_arithmetic.md R150, R151. -/
theorem addValue_u64 (a b : Value) : (addValue a b).u64 = (a.u64 + b.u64) % 2 ^ 64 := by
  have h1 := addCarry_spec a.low b.low false
  have h2 := addCarry_spec a.high b.high (addCarry a.low b.low false).2
  have := a.low.isLt
  have := b.low.isLt
  simp only [addValue, Value.u64, Bool.toNat_false] at *
  omega

/-- 43_arithmetic.md R150, R153. -/
theorem subValue_u64 (a b : Value) : ((subValue a b).u64 : Int) = ((a.u64 : Int) - b.u64) % 2 ^ 64 := by
  obtain ⟨hl, hb⟩ := subBorrow_spec a.low b.low false
  have hh := (subBorrow_spec a.high b.high (subBorrow a.low b.low false).2).1
  have hal := a.low.isLt
  have hbl := b.low.isLt
  simp only [subValue, Value.u64]
  generalize (subBorrow a.high b.high (subBorrow a.low b.low false).2).1.toNat = high at hh ⊢
  generalize (subBorrow a.low b.low false).2.toNat = borrow at hb hh
  generalize (subBorrow a.low b.low false).1.toNat = low at hl ⊢
  generalize a.low.toNat = al at *
  generalize b.low.toNat = bl at *
  generalize a.high.toNat = ah at *
  generalize b.high.toNat = bh at *
  simp only [Bool.toNat_false] at hl hb
  split at hb <;> omega

/-- 41_bitwise.md R124. -/
theorem notValue_u64 (a : Value) : (notValue a).u64 = 2 ^ 64 - 1 - a.u64 := by
  have hh := a.high.isLt
  have hl := a.low.isLt
  have h1 : (M32 - a.high).toNat = 2 ^ 32 - 1 - a.high.toNat := by
    rw [BitVec.toNat_sub_of_le (BitVec.le_def.mpr (by simp [M32]; omega))]; simp [M32]
  have h2 : (M32 - a.low).toNat = 2 ^ 32 - 1 - a.low.toNat := by
    rw [BitVec.toNat_sub_of_le (BitVec.le_def.mpr (by simp [M32]; omega))]; simp [M32]
  simp only [notValue, Value.u64, h1, h2]
  omega

/-- 45_string_conversion.md R173. -/
theorem negateValue_u64 (v : Value) : (negateValue v).u64 = (2 ^ 64 - v.u64) % 2 ^ 64 := by
  have := v.u64_lt
  rw [negateValue, addValue_u64, notValue_u64]
  have : (⟨0, 1⟩ : Value).u64 = 1 := rfl
  omega

/-! ## Construction -/

/-- 40_construction.md R112: in the safe range, the integer modulo `2^64`. -/
theorem valueOfSafeInt_u64 {sign : Bool} {mag : Nat} (h : mag ≤ safeMagnitude) :
    ((valueOfSafeInt sign mag).u64 : Int) = (if sign then -(mag : Int) else mag) % 2 ^ 64 := by
  have hm : mag < 2 ^ 53 := by simp only [safeMagnitude] at h; omega
  have hmh : (BitVec.ofNat 32 (mag / 2 ^ 32)).toNat = mag / 2 ^ 32 := by
    rw [BitVec.toNat_ofNat, Nat.mod_eq_of_lt (by omega)]
  have hml : (BitVec.ofNat 32 (mag % 2 ^ 32)).toNat = mag % 2 ^ 32 := by
    rw [BitVec.toNat_ofNat, Nat.mod_eq_of_lt (by omega)]
  cases sign with
  | false =>
    have : ((valueOfSafeInt false mag).u64 : Int) = mag := by
      simp only [valueOfSafeInt, Bool.false_eq_true, if_false, Value.u64, hmh, hml]; omega
    rw [this]; simp only [Bool.false_eq_true, if_false]; omega
  | true =>
    let x : Value := ⟨BitVec.ofNat 32 (mag / 2 ^ 32), BitVec.ofNat 32 (mag % 2 ^ 32)⟩
    have hx : x.u64 = mag := by simp only [x, Value.u64, hmh, hml]; omega
    have : valueOfSafeInt true mag = negateValue x := rfl
    rw [this, negateValue_u64, hx]
    simp only [if_true]
    omega

end Machine

end Sys2Proof
end

