-- ==== Sys2Proof/Laws/Status.lean ====
section
/-!
SUPPORT. The fields of a `STATUS` word after each write to it, and the orderings.
-/

namespace Sys2Proof.Machine

variable (reserved : BitVec 27) (df fault : Bool) (cause : BitVec 3)

theorem statusPack_toNat : (statusPack reserved df cause fault).toNat =
    reserved.toNat * 2 ^ 5 + df.toNat * 2 ^ 4 + cause.toNat * 2 ^ 1 + fault.toNat := by
  have := reserved.isLt
  have := cause.isLt
  have := df.toNat_le
  have := fault.toNat_le
  rw [statusPack, BitVec.toNat_ofNat, Nat.mod_eq_of_lt (by omega)]

@[simp] theorem statusFault_pack : statusFault (statusPack reserved df cause fault) = fault := by
  have := fault.toNat_le
  have h : bitField (statusPack reserved df cause fault) 0 0 = fault.toNat := by
    rw [bitField, statusPack_toNat]; omega
  rw [statusFault, h]
  cases fault <;> rfl

@[simp] theorem statusCause_pack : statusCause (statusPack reserved df cause fault) = cause := by
  have := cause.isLt
  have := fault.toNat_le
  have h : bitField (statusPack reserved df cause fault) 3 1 = cause.toNat := by
    rw [bitField, statusPack_toNat]; omega
  rw [statusCause, h, BitVec.ofNat_toNat, BitVec.setWidth_eq]

@[simp] theorem statusDF_pack : statusDF (statusPack reserved df cause fault) = df := by
  have := cause.isLt
  have := fault.toNat_le
  have := df.toNat_le
  have h : bitField (statusPack reserved df cause fault) 4 4 = df.toNat := by
    rw [bitField, statusPack_toNat]; omega
  rw [statusDF, h]
  cases df <;> rfl

@[simp] theorem statusReserved_pack : statusReserved (statusPack reserved df cause fault) = reserved := by
  have := reserved.isLt
  have := cause.isLt
  have := fault.toNat_le
  have := df.toNat_le
  have h : bitField (statusPack reserved df cause fault) 31 5 = reserved.toNat := by
    rw [bitField, statusPack_toNat]; omega
  rw [statusReserved, h, BitVec.ofNat_toNat, BitVec.setWidth_eq]

variable (w : Word) (c : Cause)

@[simp] theorem statusFault_withDF : statusFault (statusWithDF df w) = statusFault w := statusFault_pack ..
@[simp] theorem statusCause_withDF : statusCause (statusWithDF df w) = statusCause w := statusCause_pack ..
@[simp] theorem statusDF_withDF : statusDF (statusWithDF df w) = df := statusDF_pack ..
@[simp] theorem statusReserved_withDF : statusReserved (statusWithDF df w) = statusReserved w :=
  statusReserved_pack ..

@[simp] theorem statusFault_withFault : statusFault (statusWithFault c w) = true := statusFault_pack ..
@[simp] theorem statusCause_withFault : statusCause (statusWithFault c w) = c.code := statusCause_pack ..
@[simp] theorem statusDF_withFault : statusDF (statusWithFault c w) = statusDF w := statusDF_pack ..
@[simp] theorem statusReserved_withFault : statusReserved (statusWithFault c w) = statusReserved w :=
  statusReserved_pack ..

/-! ## The orderings -/

/-- The three outcomes of `ucmp`. -/
theorem ucmp_code (a b : Value) : ucmp a b = ordEQ ∨ ucmp a b = ordLT ∨ ucmp a b = ordGT := by
  unfold ucmp
  split
  · simp
  split
  · simp
  split
  · simp
  split <;> simp

/-- The three outcomes of `scmp`. -/
theorem scmp_code (a b : Value) : scmp a b = ordEQ ∨ scmp a b = ordLT ∨ scmp a b = ordGT := by
  unfold scmp
  split
  · split <;> simp
  · exact ucmp_code a b

end Sys2Proof.Machine
end

