-- ==== Sys2Proof/Laws/Comparison.lean ====
section
/-!
SUPPORT. The two orderings as orderings of the readings.
-/

namespace Sys2Proof

namespace Machine

/-- `ucmp` is the ordering of the unsigned readings. -/
theorem ucmp_eq (a b : Value) :
    ucmp a b = if a.u64 < b.u64 then ordLT else if a.u64 = b.u64 then ordEQ else ordGT := by
  have := a.low.isLt
  have := b.low.isLt
  have ea : a.u64 = a.high.toNat * 2 ^ 32 + a.low.toNat := rfl
  have eb : b.u64 = b.high.toNat * 2 ^ 32 + b.low.toNat := rfl
  rw [ucmp]
  by_cases h1 : a.high.toNat < b.high.toNat
  · rw [if_pos h1, if_pos (by omega)]
  rw [if_neg h1]
  by_cases h2 : a.high.toNat > b.high.toNat
  · rw [if_pos h2, if_neg (by omega), if_neg (by omega)]
  rw [if_neg h2]
  by_cases h3 : a.low.toNat < b.low.toNat
  · rw [if_pos h3, if_pos (by omega)]
  rw [if_neg h3]
  by_cases h4 : a.low.toNat > b.low.toNat
  · rw [if_pos h4, if_neg (by omega), if_neg (by omega)]
  · rw [if_neg h4, if_neg (by omega), if_pos (by omega)]

/-- `scmp` is the ordering of the signed readings. -/
theorem scmp_eq (a b : Value) :
    scmp a b = if a.s64 < b.s64 then ordLT else if a.s64 = b.s64 then ordEQ else ordGT := by
  have ha := a.u64_lt
  have hb := b.u64_lt
  have sa := a.signBit_iff
  have sb := b.signBit_iff
  have ea := a.s64_eq
  have eb := b.s64_eq
  rw [scmp, ucmp_eq]
  by_cases h1 : a.signBit = true <;> by_cases h2 : b.signBit = true
  · rw [if_pos (sa.mp h1)] at ea
    rw [if_pos (sb.mp h2)] at eb
    rw [if_neg (by rw [h1, h2]; simp), ea, eb]
    congr 1
    · exact propext (by omega)
    · congr 1
      exact propext (by omega)
  · have h3 := mt sb.mpr h2
    rw [if_pos (sa.mp h1)] at ea
    rw [if_neg h3] at eb
    rw [if_pos (by rw [h1]; simpa using h2), if_neg (by rw [h1]; simp), if_pos (by omega)]
  · have h3 := mt sa.mpr h1
    rw [if_neg h3] at ea
    rw [if_pos (sb.mp h2)] at eb
    rw [if_pos (by rw [h2]; simpa using h1), if_pos (by simpa using h1), if_neg (by omega), if_neg (by omega)]
  · rw [if_neg (mt sa.mpr h1)] at ea
    rw [if_neg (mt sb.mpr h2)] at eb
    rw [if_neg (by simp at h1 h2; rw [h1, h2]; simp), ea, eb]
    congr 1
    · exact propext (by omega)
    · congr 1
      exact propext (by omega)

end Machine

/-- The sign mask of 10_state.md R21 picks the sign bit. -/
theorem Value.high_and_signMask (v : Value) :
    v.high &&& 0x80000000 = if v.signBit then 0x80000000 else 0 := BitVec.and_twoPow v.high 31

/-- The signed reading names the value. -/
theorem Value.ext_s64 {a b : Value} (h : a.s64 = b.s64) : a = b := by
  have := a.u64_lt
  have := b.u64_lt
  rw [Value.s64_eq, Value.s64_eq] at h
  apply Value.ext_u64
  split at h <;> split at h <;> omega

end Sys2Proof
end

