-- ==== Sys2Proof/Laws/Encoding.lean ====
section
/-!
SUPPORT. The fields of a command word put together by the encoder, and the fields of any word.
-/

namespace Sys2Proof

/-- A field is below 2 to the number of its bits. -/
theorem bitField_lt (w : Word) (hi lo : Nat) : bitField w hi lo < 2 ^ (hi + 1 - lo) :=
  Nat.mod_lt _ (Nat.two_pow_pos _)

/-- What the encoder needs of its fields for none to reach into another. -/
structure FieldsFit (op rd ra rb low : Nat) : Prop where
  op_lt : op < 256
  rd_lt : rd < 16
  ra_lt : ra < 16
  low_lt : rb * 2 ^ 12 + low < 2 ^ 16

theorem packWord_toNat {op rd ra rb low : Nat} (h : FieldsFit op rd ra rb low) :
    (packWord op rd ra rb low).toNat = op * 2 ^ 24 + rd * 2 ^ 20 + ra * 2 ^ 16 + rb * 2 ^ 12 + low := by
  obtain ⟨h1, h2, h3, h4⟩ := h
  rw [packWord, BitVec.toNat_ofNat]
  omega

/-- A field of a packed word, from the sum it was packed as. -/
theorem bitField_packWord {op rd ra rb low : Nat} (h : FieldsFit op rd ra rb low) (hi lo : Nat) :
    bitField (packWord op rd ra rb low) hi lo =
      (op * 2 ^ 24 + rd * 2 ^ 20 + ra * 2 ^ 16 + rb * 2 ^ 12 + low) / 2 ^ lo % 2 ^ (hi + 1 - lo) := by
  rw [bitField, packWord_toNat h]

section Fields

variable {op rd ra rb low : Nat} (h : FieldsFit op rd ra rb low)
include h

theorem packWord_op : bitField (packWord op rd ra rb low) 31 24 = op := by
  rw [bitField_packWord h]
  obtain ⟨h1, h2, h3, h4⟩ := h
  omega

theorem packWord_rd : bitField (packWord op rd ra rb low) 23 20 = rd := by
  rw [bitField_packWord h]
  obtain ⟨h1, h2, h3, h4⟩ := h
  omega

theorem packWord_ra : bitField (packWord op rd ra rb low) 19 16 = ra := by
  rw [bitField_packWord h]
  obtain ⟨h1, h2, h3, h4⟩ := h
  omega

theorem packWord_low16 : bitField (packWord op rd ra rb low) 15 0 = rb * 2 ^ 12 + low := by
  rw [bitField_packWord h]
  obtain ⟨h1, h2, h3, h4⟩ := h
  omega

end Fields

/-- A field inside bits 15:0 is a field of those bits. -/
theorem bitField_of_low16 (w : Word) {hi lo : Nat} (hhi : hi < 16) :
    bitField w hi lo = bitField w 15 0 / 2 ^ lo % 2 ^ (hi + 1 - lo) := by
  simp only [bitField, Nat.pow_zero, Nat.div_one, Nat.sub_zero]
  by_cases hlo : lo ≤ 16
  · have e : 2 ^ (15 + 1) = 2 ^ lo * 2 ^ (16 - lo) := by rw [← Nat.pow_add]; congr 1; omega
    rw [e, Nat.mod_mul_right_div_self, Nat.mod_mod_of_dvd]
    exact Nat.pow_dvd_pow 2 (by omega)
  · simp [show hi + 1 - lo = 0 by omega, Nat.mod_one]

/-- The `rd` and `ra` fields of any word name registers. -/
theorem fieldRd_val (w : Word) : (fieldRd w).val = bitField w 23 20 := Nat.mod_eq_of_lt (bitField_lt w 23 20)
theorem fieldRa_val (w : Word) : (fieldRa w).val = bitField w 19 16 := Nat.mod_eq_of_lt (bitField_lt w 19 16)
theorem fieldRb_val (w : Word) : (fieldRb w).val = bitField w 15 12 := Nat.mod_eq_of_lt (bitField_lt w 15 12)

/-! ## The decoder's fields of a packed word -/

theorem fieldRd_packWord {op rd ra rb low : Nat} (h : FieldsFit op rd ra rb low) :
    fieldRd (packWord op rd ra rb low) = ⟨rd, h.rd_lt⟩ := by
  apply Fin.ext
  rw [fieldRd_val, packWord_rd h]

theorem fieldRa_packWord {op rd ra rb low : Nat} (h : FieldsFit op rd ra rb low) :
    fieldRa (packWord op rd ra rb low) = ⟨ra, h.ra_lt⟩ := by
  apply Fin.ext
  rw [fieldRa_val, packWord_ra h]

theorem fieldRb_packWord {op rd ra : Nat} {rb : Reg} (h : FieldsFit op rd ra rb.val 0) :
    fieldRb (packWord op rd ra rb.val 0) = rb := by
  have := rb.isLt
  apply Fin.ext
  rw [fieldRb_val, bitField_of_low16 _ (by omega), packWord_low16 h]
  omega

theorem fieldN_packWord {op rd ra n : Nat} (hn : n ≤ 255) (h : FieldsFit op rd ra 0 n) :
    fieldN (packWord op rd ra 0 n) = n := by
  rw [fieldN, bitField_of_low16 _ (by omega), packWord_low16 h]
  omega

theorem fieldE_packWord {op rd ra : Nat} {order : ByteOrder} (h : FieldsFit op rd ra 0 order.bit) :
    fieldE (packWord op rd ra 0 order.bit) = order := by
  rw [fieldE, bitField_of_low16 _ (by omega), packWord_low16 h]
  cases order <;> rfl

theorem fieldImm_packWord {op rd ra : Nat} {imm : BitVec 16} (h : FieldsFit op rd ra 0 imm.toNat) :
    fieldImm (packWord op rd ra 0 imm.toNat) = imm := by
  rw [fieldImm, packWord_low16 h, Nat.zero_mul, Nat.zero_add, BitVec.ofNat_toNat, BitVec.setWidth_eq]

end Sys2Proof
end

