-- ==== Sys2Proof/Laws/Decoding.lean ====
section
/-!
SUPPORT. The decoder's two checks on a command word as the one comparison of 30_encoding.md R82, `word & mask = match`, and
that a word is its fields.
-/

namespace Sys2Proof

theorem bitField_testBit (w : Word) (hi lo k : Nat) :
    (bitField w hi lo).testBit k = (decide (k < hi + 1 - lo) && w.getLsbD (lo + k)) := by
  rw [bitField, Nat.testBit_mod_two_pow, Nat.testBit_div_two_pow, BitVec.getLsbD, Nat.add_comm k]

/-- A field is 0 when each of its bits is. -/
theorem bitField_eq_zero_iff (w : Word) (hi lo : Nat) :
    bitField w hi lo = 0 ↔ ∀ i, lo ≤ i → i ≤ hi → w.getLsbD i = false := by
  constructor
  · intro h i h1 h2
    have := bitField_testBit w hi lo (i - lo)
    rw [h, Nat.zero_testBit, show lo + (i - lo) = i by omega] at this
    simpa [show i - lo < hi + 1 - lo by omega] using this.symm
  · intro h
    apply Nat.eq_of_testBit_eq
    intro k
    rw [bitField_testBit, Nat.zero_testBit]
    by_cases hk : k < hi + 1 - lo
    · rw [h (lo + k) (by omega) (by omega), Bool.and_false]
    · simp [hk]

/-- The reserved bits of a format, one by one. -/
def Format.isReserved (f : Format) (i : Nat) : Bool := f.reserved.any fun r => decide (r.2 ≤ i) && decide (i ≤ r.1)

theorem Format.clear_iff (f : Format) (w : Word) :
    f.clear w = true ↔ ∀ i, f.isReserved i = true → w.getLsbD i = false := by
  simp only [Format.clear, List.all_eq_true, beq_iff_eq, bitField_eq_zero_iff, Format.isReserved, List.any_eq_true,
    Bool.and_eq_true, decide_eq_true_eq]
  constructor
  · rintro h i ⟨r, hr, h1, h2⟩
    exact h r hr i h1 h2
  · intro h r hr i h1 h2
    exact h i ⟨r, hr, h1, h2⟩

/-- The opcode field bit by bit. -/
theorem opcode_iff (w : Word) {op : Nat} (hop : op < 256) :
    bitField w 31 24 = op ↔ ∀ i, 24 ≤ i → i < 32 → w.getLsbD i = op.testBit (i - 24) := by
  constructor
  · rintro rfl i h1 h2
    rw [bitField_testBit, show 24 + (i - 24) = i by omega]
    simp [show i - 24 < 31 + 1 - 24 by omega]
  · intro h
    apply Nat.eq_of_testBit_eq
    intro k
    rw [bitField_testBit]
    by_cases hk : k < 8
    · rw [h (24 + k) (by omega) (by omega), show 24 + k - 24 = k by omega]
      simp [hk]
    · have : op.testBit k = false :=
        Nat.testBit_lt_two_pow (Nat.lt_of_lt_of_le hop (Nat.pow_le_pow_right (n := 2) (by decide) (by omega : 8 ≤ k)))
      rw [this]
      simp [show ¬ k < 31 + 1 - 24 by omega]

/-- A row of the opcode table: where `mask` is the opcode field and the reserved bits of the format and `match` is
the opcode, the comparison is the decoder's two checks. -/
theorem row_iff {f : Format} {op : Nat} {mask match_ : Word} (w : Word) (hop : op < 256)
    (hmask : ∀ i : Fin 32, mask.getLsbD i.val = (decide (24 ≤ i.val) || f.isReserved i.val))
    (hmatch : ∀ i : Fin 32, match_.getLsbD i.val = (decide (24 ≤ i.val) && op.testBit (i.val - 24)))
    (hres : ∀ r ∈ f.reserved, r.1 < 24) :
    w &&& mask = match_ ↔ bitField w 31 24 = op ∧ f.clear w = true := by
  have hlt : ∀ i, f.isReserved i = true → i < 24 := by
    intro i hi
    simp only [Format.isReserved, List.any_eq_true, Bool.and_eq_true, decide_eq_true_eq] at hi
    obtain ⟨r, hr, h1, h2⟩ := hi
    exact Nat.lt_of_le_of_lt h2 (hres r hr)
  rw [opcode_iff w hop, f.clear_iff]
  constructor
  · intro h
    have hb : ∀ i, i < 32 → (w.getLsbD i && mask.getLsbD i) = match_.getLsbD i := by
      intro i _
      rw [← BitVec.getLsbD_and, h]
    constructor
    · intro i h1 h2
      have := hb i h2
      rw [hmask ⟨i, h2⟩, hmatch ⟨i, h2⟩] at this
      simpa [h1] using this
    · intro i hi
      have h24 := hlt i hi
      have := hb i (by omega)
      rw [hmask ⟨i, by omega⟩, hmatch ⟨i, by omega⟩] at this
      simpa [hi, show ¬ 24 ≤ i by omega] using this
  · rintro ⟨h1, h2⟩
    apply BitVec.eq_of_getLsbD_eq
    intro i hi
    rw [BitVec.getLsbD_and, hmask ⟨i, hi⟩, hmatch ⟨i, hi⟩]
    by_cases h24 : 24 ≤ i
    · simp [h24, h1 i h24 hi]
    · by_cases hr : f.isReserved i = true
      · simp [h24, h2 i hr]
      · simp [h24, hr]

/-- A word is its opcode, its register fields and its low bits. -/
theorem word_eq_fields (w : Word) :
    w.toNat = bitField w 31 24 * 2 ^ 24 + bitField w 23 20 * 2 ^ 20 + bitField w 19 16 * 2 ^ 16 +
      bitField w 15 12 * 2 ^ 12 + bitField w 11 0 := by
  have := w.isLt
  simp only [bitField]
  omega

end Sys2Proof
end

