-- ==== Sys2Proof/Laws/Memory.lean ====
section
/-!
SUPPORT. The laws of the byte buffer: a read after a write, the canonical form kept, and equal reads of canonical
memories meaning equal memories.
-/

namespace Sys2Proof.Machine

/-! ## One byte -/

theorem Memory.read_erase (m : Memory) (a x : Nat) :
    Memory.read (Memory.erase m a) x = if x = a then Memory.unlisted else Memory.read m x := by
  induction m with
  | nil => simp [Memory.erase, Memory.read]
  | cons c m ih =>
    obtain ⟨a', b⟩ := c
    simp only [Memory.erase, List.filter_cons] at ih ⊢
    by_cases h : a' = a <;> by_cases hx : x = a' <;> simp_all [Memory.read]

theorem Memory.read_insert (m : Memory) (a x : Nat) (b : Byte) (hm : ∀ c ∈ m, c.1 ≠ a) :
    Memory.read (Memory.insert m a b) x = if x = a then b else Memory.read m x := by
  induction m with
  | nil => simp [Memory.insert, Memory.read]
  | cons c m ih =>
    obtain ⟨a', b'⟩ := c
    have ha' : a' ≠ a := hm _ List.mem_cons_self
    have ih := ih fun c hc => hm c (List.mem_cons_of_mem _ hc)
    simp only [Memory.insert]
    split <;> by_cases hx : x = a' <;> simp_all [Memory.read]

theorem Memory.erase_ne {m : Memory} {a : Nat} : ∀ c ∈ Memory.erase m a, c.1 ≠ a := by
  intro c hc
  simpa using (List.mem_filter.mp hc).2

/-- The read law of a write: the byte written, and every other byte as it was. -/
theorem Memory.read_write (m : Memory) (a x : Nat) (b : Byte) :
    Memory.read (Memory.write m a b) x = if x = a then b else Memory.read m x := by
  unfold Memory.write
  split
  · rename_i h; rw [Memory.read_erase, h]
  · rw [Memory.read_insert _ _ _ _ Memory.erase_ne, Memory.read_erase]
    split <;> rfl

@[simp] theorem Memory.read_write_same (m : Memory) (a : Nat) (b : Byte) :
    Memory.read (Memory.write m a b) a = b := by simp [Memory.read_write]

theorem Memory.read_write_other {m : Memory} {a x : Nat} {b : Byte} (h : x ≠ a) :
    Memory.read (Memory.write m a b) x = Memory.read m x := by simp [Memory.read_write, h]

/-! ## The canonical form -/

theorem Memory.mem_insert {m : Memory} {a : Nat} {b : Byte} {c : Host.Cell} :
    c ∈ Memory.insert m a b ↔ c = (a, b) ∨ c ∈ m := by
  induction m with
  | nil => simp [Memory.insert]
  | cons d m ih =>
    simp only [Memory.insert]
    split <;> simp [ih, or_left_comm]

theorem Memory.mem_write {m : Memory} {a : Nat} {b : Byte} {c : Host.Cell}
    (h : c ∈ Memory.write m a b) : c = (a, b) ∨ c ∈ m := by
  unfold Memory.write at h
  split at h
  · exact .inr (List.mem_filter.mp h).1
  · exact (Memory.mem_insert.mp h).imp id fun h => (List.mem_filter.mp h).1

theorem Memory.insert_rising {m : Memory} {a : Nat} {b : Byte} (hm : m.Pairwise fun c d => c.1 < d.1)
    (ha : ∀ c ∈ m, c.1 ≠ a) : (Memory.insert m a b).Pairwise fun c d => c.1 < d.1 := by
  induction m with
  | nil => simp [Memory.insert]
  | cons d m ih =>
    obtain ⟨hd, hm'⟩ := List.pairwise_cons.mp hm
    have hda : d.1 ≠ a := ha d List.mem_cons_self
    simp only [Memory.insert]
    split
    · rename_i h
      refine List.pairwise_cons.mpr ⟨fun c hc => ?_, hm⟩
      rcases List.mem_cons.mp hc with rfl | hc
      · exact h
      · exact Nat.lt_trans h (hd c hc)
    · rename_i h
      refine List.pairwise_cons.mpr ⟨fun c hc => ?_, ih hm' fun c hc => ha c (List.mem_cons_of_mem _ hc)⟩
      rcases Memory.mem_insert.mp hc with rfl | hc
      · simp only; omega
      · exact hd c hc

/-- A write keeps the canonical form. -/
theorem Memory.write_wf {m : Memory} (h : Memory.wf m) (a : Nat) (b : Byte) : Memory.wf (Memory.write m a b) := by
  have he : (Memory.erase m a).Pairwise fun c d => c.1 < d.1 := h.1.sublist List.filter_sublist
  refine ⟨?_, fun c hc => ?_⟩
  · unfold Memory.write
    split
    · exact he
    · exact Memory.insert_rising he Memory.erase_ne
  · by_cases hb : b = Memory.unlisted
    · rw [Memory.write, if_pos hb] at hc
      exact h.2 c (List.mem_filter.mp hc).1
    · rcases Memory.mem_write hc with rfl | hc
      · exact hb
      · exact h.2 c hc

/-! ## A list of bytes -/

theorem Memory.read_writeList (bs : List Byte) (m : Memory) (a x : Nat) :
    Memory.read (Memory.writeList m a bs) x =
      if h : a ≤ x ∧ x < a + bs.length then bs[x - a] else Memory.read m x := by
  induction bs generalizing m a with
  | nil => simp [Memory.writeList]
  | cons b bs ih =>
    rw [Memory.writeList, ih, Memory.read_write]
    simp only [List.length_cons]
    by_cases h1 : x = a
    · subst h1; simp
    · by_cases h2 : a + 1 ≤ x ∧ x < a + 1 + bs.length
      · have h3 : a ≤ x ∧ x < a + (bs.length + 1) := by omega
        have h4 : x - a = x - (a + 1) + 1 := by omega
        simp [h2, h3, h4]
      · have h3 : ¬(a ≤ x ∧ x < a + (bs.length + 1)) := by omega
        rw [dif_neg h2, if_neg h1, dif_neg h3]

theorem Memory.writeList_wf {m : Memory} (h : Memory.wf m) (bs : List Byte) (a : Nat) :
    Memory.wf (Memory.writeList m a bs) := by
  induction bs generalizing m a with
  | nil => exact h
  | cons b bs ih => exact ih (Memory.write_wf h a b) (a + 1)

/-- A write adds no cell but at its own addresses. -/
theorem Memory.mem_writeList {bs : List Byte} {m : Memory} {a : Nat} {c : Host.Cell}
    (h : c ∈ Memory.writeList m a bs) : (a ≤ c.1 ∧ c.1 < a + bs.length) ∨ c ∈ m := by
  induction bs generalizing m a with
  | nil => exact .inr h
  | cons b bs ih =>
    simp only [List.length_cons]
    rcases ih h with h | h
    · exact .inl (by omega)
    · rcases Memory.mem_write h with rfl | h
      · exact .inl (by simp only; omega)
      · exact .inr h

/-! ## Equal memories are equal data -/

theorem Memory.read_of_lt {m : Memory} {x : Nat} (h : ∀ c ∈ m, x < c.1) : Memory.read m x = Memory.unlisted := by
  induction m with
  | nil => rfl
  | cons c m ih =>
    have hc : x ≠ c.1 := Nat.ne_of_lt (h c List.mem_cons_self)
    simp [Memory.read, hc, ih fun d hd => h d (List.mem_cons_of_mem _ hd)]

/-- Two canonical memories that read alike at every address are the same list. -/
theorem Memory.ext_of_wf {m n : Memory} (hm : Memory.wf m) (hn : Memory.wf n)
    (h : ∀ a, Memory.read m a = Memory.read n a) : m = n := by
  induction m generalizing n with
  | nil =>
    cases n with
    | nil => rfl
    | cons d n =>
      have := h d.1
      simp only [Memory.read, if_true] at this
      exact absurd this.symm (hn.2 d List.mem_cons_self)
  | cons c m ih =>
    obtain ⟨hcm, hm'⟩ := List.pairwise_cons.mp hm.1
    have hc0 := hm.2 c List.mem_cons_self
    cases n with
    | nil =>
      have := h c.1
      simp only [Memory.read, if_true] at this
      exact absurd this hc0
    | cons d n =>
      obtain ⟨hdn, hn'⟩ := List.pairwise_cons.mp hn.1
      have hd0 := hn.2 d List.mem_cons_self
      have hreadc := h c.1
      have hreadd := h d.1
      simp only [Memory.read, if_true] at hreadc hreadd
      have hcd : c.1 = d.1 := by
        rcases Nat.lt_trichotomy c.1 d.1 with hlt | heq | hgt
        · rw [if_neg (by omega), Memory.read_of_lt fun e he => Nat.lt_trans hlt (hdn e he)] at hreadc
          exact absurd hreadc hc0
        · exact heq
        · rw [if_neg (by omega), Memory.read_of_lt fun e he => Nat.lt_trans hgt (hcm e he)] at hreadd
          exact absurd hreadd.symm hd0
      have hb : c.2 = d.2 := by simpa [hcd] using hreadc
      have htail : m = n := by
        refine ih ⟨hm', fun e he => hm.2 e (List.mem_cons_of_mem _ he)⟩
          ⟨hn', fun e he => hn.2 e (List.mem_cons_of_mem _ he)⟩ fun a => ?_
        have ha := h a
        simp only [Memory.read, ← hcd, ← hb] at ha
        by_cases hac : a = c.1
        · subst hac
          rw [Memory.read_of_lt hcm, Memory.read_of_lt (hcd ▸ hdn)]
        · simpa [hac] using ha
      rw [htail, Prod.ext hcd hb]

end Sys2Proof.Machine
end

