-- ==== Sys2Proof/Laws/State.lean ====
section
/-!
SUPPORT. What each update of the state does to each field, one lemma a field, and the register file's two laws.
-/

namespace Sys2Proof.Machine

variable (s : State)

/-! ## writeReg -/

@[simp] theorem State.writeReg_cfg (r : Reg) (v : Value) :
    (s.writeReg r v).cfg = s.cfg := rfl
@[simp] theorem State.writeReg_regs (r : Reg) (v : Value) :
    (s.writeReg r v).regs = s.regs.set r v := rfl
@[simp] theorem State.writeReg_status (r : Reg) (v : Value) :
    (s.writeReg r v).status = s.status := rfl
@[simp] theorem State.writeReg_finfo (r : Reg) (v : Value) :
    (s.writeReg r v).finfo = s.finfo := rfl
@[simp] theorem State.writeReg_ord (r : Reg) (v : Value) :
    (s.writeReg r v).ord = s.ord := rfl
@[simp] theorem State.writeReg_cur (r : Reg) (v : Value) :
    (s.writeReg r v).cur = s.cur := rfl
@[simp] theorem State.writeReg_len (r : Reg) (v : Value) :
    (s.writeReg r v).len = s.len := rfl
@[simp] theorem State.writeReg_outlen (r : Reg) (v : Value) :
    (s.writeReg r v).outlen = s.outlen := rfl
@[simp] theorem State.writeReg_out (r : Reg) (v : Value) :
    (s.writeReg r v).out = s.out := rfl
@[simp] theorem State.writeReg_buf (r : Reg) (v : Value) :
    (s.writeReg r v).buf = s.buf := rfl
@[simp] theorem State.writeReg_stream (r : Reg) (v : Value) :
    (s.writeReg r v).stream = s.stream := rfl
@[simp] theorem State.writeReg_draws (r : Reg) (v : Value) :
    (s.writeReg r v).draws = s.draws := rfl

/-! ## setOrd -/

@[simp] theorem State.setOrd_cfg (o : BitVec 2) :
    (s.setOrd o).cfg = s.cfg := rfl
@[simp] theorem State.setOrd_regs (o : BitVec 2) :
    (s.setOrd o).regs = s.regs := rfl
@[simp] theorem State.setOrd_status (o : BitVec 2) :
    (s.setOrd o).status = s.status := rfl
@[simp] theorem State.setOrd_finfo (o : BitVec 2) :
    (s.setOrd o).finfo = s.finfo := rfl
@[simp] theorem State.setOrd_ord (o : BitVec 2) :
    (s.setOrd o).ord = o := rfl
@[simp] theorem State.setOrd_cur (o : BitVec 2) :
    (s.setOrd o).cur = s.cur := rfl
@[simp] theorem State.setOrd_len (o : BitVec 2) :
    (s.setOrd o).len = s.len := rfl
@[simp] theorem State.setOrd_outlen (o : BitVec 2) :
    (s.setOrd o).outlen = s.outlen := rfl
@[simp] theorem State.setOrd_out (o : BitVec 2) :
    (s.setOrd o).out = s.out := rfl
@[simp] theorem State.setOrd_buf (o : BitVec 2) :
    (s.setOrd o).buf = s.buf := rfl
@[simp] theorem State.setOrd_stream (o : BitVec 2) :
    (s.setOrd o).stream = s.stream := rfl
@[simp] theorem State.setOrd_draws (o : BitVec 2) :
    (s.setOrd o).draws = s.draws := rfl

/-! ## setDF -/

@[simp] theorem State.setDF_cfg (b : Bool) :
    (s.setDF b).cfg = s.cfg := rfl
@[simp] theorem State.setDF_regs (b : Bool) :
    (s.setDF b).regs = s.regs := rfl
@[simp] theorem State.setDF_status (b : Bool) :
    (s.setDF b).status = statusWithDF b s.status := rfl
@[simp] theorem State.setDF_finfo (b : Bool) :
    (s.setDF b).finfo = s.finfo := rfl
@[simp] theorem State.setDF_ord (b : Bool) :
    (s.setDF b).ord = s.ord := rfl
@[simp] theorem State.setDF_cur (b : Bool) :
    (s.setDF b).cur = s.cur := rfl
@[simp] theorem State.setDF_len (b : Bool) :
    (s.setDF b).len = s.len := rfl
@[simp] theorem State.setDF_outlen (b : Bool) :
    (s.setDF b).outlen = s.outlen := rfl
@[simp] theorem State.setDF_out (b : Bool) :
    (s.setDF b).out = s.out := rfl
@[simp] theorem State.setDF_buf (b : Bool) :
    (s.setDF b).buf = s.buf := rfl
@[simp] theorem State.setDF_stream (b : Bool) :
    (s.setDF b).stream = s.stream := rfl
@[simp] theorem State.setDF_draws (b : Bool) :
    (s.setDF b).draws = s.draws := rfl

/-! ## setCur -/

@[simp] theorem State.setCur_cfg (a : BitVec 16) :
    (s.setCur a).cfg = s.cfg := rfl
@[simp] theorem State.setCur_regs (a : BitVec 16) :
    (s.setCur a).regs = s.regs := rfl
@[simp] theorem State.setCur_status (a : BitVec 16) :
    (s.setCur a).status = s.status := rfl
@[simp] theorem State.setCur_finfo (a : BitVec 16) :
    (s.setCur a).finfo = s.finfo := rfl
@[simp] theorem State.setCur_ord (a : BitVec 16) :
    (s.setCur a).ord = s.ord := rfl
@[simp] theorem State.setCur_cur (a : BitVec 16) :
    (s.setCur a).cur = a := rfl
@[simp] theorem State.setCur_len (a : BitVec 16) :
    (s.setCur a).len = s.len := rfl
@[simp] theorem State.setCur_outlen (a : BitVec 16) :
    (s.setCur a).outlen = s.outlen := rfl
@[simp] theorem State.setCur_out (a : BitVec 16) :
    (s.setCur a).out = s.out := rfl
@[simp] theorem State.setCur_buf (a : BitVec 16) :
    (s.setCur a).buf = s.buf := rfl
@[simp] theorem State.setCur_stream (a : BitVec 16) :
    (s.setCur a).stream = s.stream := rfl
@[simp] theorem State.setCur_draws (a : BitVec 16) :
    (s.setCur a).draws = s.draws := rfl

/-! ## setLen -/

@[simp] theorem State.setLen_cfg (n : BitVec 16) :
    (s.setLen n).cfg = s.cfg := rfl
@[simp] theorem State.setLen_regs (n : BitVec 16) :
    (s.setLen n).regs = s.regs := rfl
@[simp] theorem State.setLen_status (n : BitVec 16) :
    (s.setLen n).status = s.status := rfl
@[simp] theorem State.setLen_finfo (n : BitVec 16) :
    (s.setLen n).finfo = s.finfo := rfl
@[simp] theorem State.setLen_ord (n : BitVec 16) :
    (s.setLen n).ord = s.ord := rfl
@[simp] theorem State.setLen_cur (n : BitVec 16) :
    (s.setLen n).cur = s.cur := rfl
@[simp] theorem State.setLen_len (n : BitVec 16) :
    (s.setLen n).len = n := rfl
@[simp] theorem State.setLen_outlen (n : BitVec 16) :
    (s.setLen n).outlen = s.outlen := rfl
@[simp] theorem State.setLen_out (n : BitVec 16) :
    (s.setLen n).out = s.out := rfl
@[simp] theorem State.setLen_buf (n : BitVec 16) :
    (s.setLen n).buf = s.buf := rfl
@[simp] theorem State.setLen_stream (n : BitVec 16) :
    (s.setLen n).stream = s.stream := rfl
@[simp] theorem State.setLen_draws (n : BitVec 16) :
    (s.setLen n).draws = s.draws := rfl

/-! ## setOut -/

@[simp] theorem State.setOut_cfg (bytes : List Byte) :
    (s.setOut bytes).cfg = s.cfg := rfl
@[simp] theorem State.setOut_regs (bytes : List Byte) :
    (s.setOut bytes).regs = s.regs := rfl
@[simp] theorem State.setOut_status (bytes : List Byte) :
    (s.setOut bytes).status = s.status := rfl
@[simp] theorem State.setOut_finfo (bytes : List Byte) :
    (s.setOut bytes).finfo = s.finfo := rfl
@[simp] theorem State.setOut_ord (bytes : List Byte) :
    (s.setOut bytes).ord = s.ord := rfl
@[simp] theorem State.setOut_cur (bytes : List Byte) :
    (s.setOut bytes).cur = s.cur := rfl
@[simp] theorem State.setOut_len (bytes : List Byte) :
    (s.setOut bytes).len = s.len := rfl
@[simp] theorem State.setOut_outlen (bytes : List Byte) :
    (s.setOut bytes).outlen = BitVec.ofNat 7 bytes.length := rfl
@[simp] theorem State.setOut_out (bytes : List Byte) :
    (s.setOut bytes).out = Vector.ofFn fun i => bytes.getD i.val 0 := rfl
@[simp] theorem State.setOut_buf (bytes : List Byte) :
    (s.setOut bytes).buf = s.buf := rfl
@[simp] theorem State.setOut_stream (bytes : List Byte) :
    (s.setOut bytes).stream = s.stream := rfl
@[simp] theorem State.setOut_draws (bytes : List Byte) :
    (s.setOut bytes).draws = s.draws := rfl

/-! ## raiseFault -/

@[simp] theorem State.raiseFault_cfg (cause : Cause) (word : Word) :
    (s.raiseFault cause word).cfg = s.cfg := rfl
@[simp] theorem State.raiseFault_regs (cause : Cause) (word : Word) :
    (s.raiseFault cause word).regs = s.regs := rfl
@[simp] theorem State.raiseFault_status (cause : Cause) (word : Word) :
    (s.raiseFault cause word).status = statusWithFault cause s.status := rfl
@[simp] theorem State.raiseFault_finfo (cause : Cause) (word : Word) :
    (s.raiseFault cause word).finfo = word := rfl
@[simp] theorem State.raiseFault_ord (cause : Cause) (word : Word) :
    (s.raiseFault cause word).ord = s.ord := rfl
@[simp] theorem State.raiseFault_cur (cause : Cause) (word : Word) :
    (s.raiseFault cause word).cur = s.cur := rfl
@[simp] theorem State.raiseFault_len (cause : Cause) (word : Word) :
    (s.raiseFault cause word).len = s.len := rfl
@[simp] theorem State.raiseFault_outlen (cause : Cause) (word : Word) :
    (s.raiseFault cause word).outlen = s.outlen := rfl
@[simp] theorem State.raiseFault_out (cause : Cause) (word : Word) :
    (s.raiseFault cause word).out = s.out := rfl
@[simp] theorem State.raiseFault_buf (cause : Cause) (word : Word) :
    (s.raiseFault cause word).buf = s.buf := rfl
@[simp] theorem State.raiseFault_stream (cause : Cause) (word : Word) :
    (s.raiseFault cause word).stream = s.stream := rfl
@[simp] theorem State.raiseFault_draws (cause : Cause) (word : Word) :
    (s.raiseFault cause word).draws = s.draws := rfl

/-! ## drawn -/

@[simp] theorem State.drawn_cfg :
    (s.drawn).cfg = s.cfg := rfl
@[simp] theorem State.drawn_regs :
    (s.drawn).regs = s.regs := rfl
@[simp] theorem State.drawn_status :
    (s.drawn).status = s.status := rfl
@[simp] theorem State.drawn_finfo :
    (s.drawn).finfo = s.finfo := rfl
@[simp] theorem State.drawn_ord :
    (s.drawn).ord = s.ord := rfl
@[simp] theorem State.drawn_cur :
    (s.drawn).cur = s.cur := rfl
@[simp] theorem State.drawn_len :
    (s.drawn).len = s.len := rfl
@[simp] theorem State.drawn_outlen :
    (s.drawn).outlen = s.outlen := rfl
@[simp] theorem State.drawn_out :
    (s.drawn).out = s.out := rfl
@[simp] theorem State.drawn_buf :
    (s.drawn).buf = s.buf := rfl
@[simp] theorem State.drawn_stream :
    (s.drawn).stream = s.stream := rfl
@[simp] theorem State.drawn_draws :
    (s.drawn).draws = s.draws + 1 := rfl

/-! ## consume -/

@[simp] theorem State.consume_cfg (rest : List Word) :
    (s.consume rest).cfg = s.cfg := rfl
@[simp] theorem State.consume_regs (rest : List Word) :
    (s.consume rest).regs = s.regs := rfl
@[simp] theorem State.consume_status (rest : List Word) :
    (s.consume rest).status = s.status := rfl
@[simp] theorem State.consume_finfo (rest : List Word) :
    (s.consume rest).finfo = s.finfo := rfl
@[simp] theorem State.consume_ord (rest : List Word) :
    (s.consume rest).ord = s.ord := rfl
@[simp] theorem State.consume_cur (rest : List Word) :
    (s.consume rest).cur = s.cur := rfl
@[simp] theorem State.consume_len (rest : List Word) :
    (s.consume rest).len = s.len := rfl
@[simp] theorem State.consume_outlen (rest : List Word) :
    (s.consume rest).outlen = s.outlen := rfl
@[simp] theorem State.consume_out (rest : List Word) :
    (s.consume rest).out = s.out := rfl
@[simp] theorem State.consume_buf (rest : List Word) :
    (s.consume rest).buf = s.buf := rfl
@[simp] theorem State.consume_stream (rest : List Word) :
    (s.consume rest).stream = rest := rfl
@[simp] theorem State.consume_draws (rest : List Word) :
    (s.consume rest).draws = s.draws := rfl

/-! ## hostPush -/

@[simp] theorem State.hostPush_cfg (words : List Word) :
    (s.hostPush words).cfg = s.cfg := rfl
@[simp] theorem State.hostPush_regs (words : List Word) :
    (s.hostPush words).regs = s.regs := rfl
@[simp] theorem State.hostPush_status (words : List Word) :
    (s.hostPush words).status = s.status := rfl
@[simp] theorem State.hostPush_finfo (words : List Word) :
    (s.hostPush words).finfo = s.finfo := rfl
@[simp] theorem State.hostPush_ord (words : List Word) :
    (s.hostPush words).ord = s.ord := rfl
@[simp] theorem State.hostPush_cur (words : List Word) :
    (s.hostPush words).cur = s.cur := rfl
@[simp] theorem State.hostPush_len (words : List Word) :
    (s.hostPush words).len = s.len := rfl
@[simp] theorem State.hostPush_outlen (words : List Word) :
    (s.hostPush words).outlen = s.outlen := rfl
@[simp] theorem State.hostPush_out (words : List Word) :
    (s.hostPush words).out = s.out := rfl
@[simp] theorem State.hostPush_buf (words : List Word) :
    (s.hostPush words).buf = s.buf := rfl
@[simp] theorem State.hostPush_stream (words : List Word) :
    (s.hostPush words).stream = s.stream ++ words := rfl
@[simp] theorem State.hostPush_draws (words : List Word) :
    (s.hostPush words).draws = s.draws := rfl

/-! ## The register file -/

@[simp] theorem State.readReg_writeReg_same (r : Reg) (v : Value) : (s.writeReg r v).readReg r = v := by
  simp [State.readReg, State.writeReg]

theorem State.readReg_writeReg_other {r r' : Reg} (h : r' ≠ r) (v : Value) :
    (s.writeReg r v).readReg r' = s.readReg r' := by
  have : ¬ r.val = r'.val := fun e => h (Fin.ext e.symm)
  simp [State.readReg, State.writeReg, this]

/-- An update that keeps `regs` keeps every register. -/
theorem State.readReg_of_regs {s t : State} (h : t.regs = s.regs) (r : Reg) : t.readReg r = s.readReg r := by
  simp [State.readReg, h]

/-! ## The output buffer -/

@[simp] theorem State.hostOut_setOut (bytes : List Byte) (i : Fin 64) :
    (s.setOut bytes).hostOut i = bytes.getD i.val 0 := by
  simp [State.hostOut, State.setOut]

/-- Where the bytes fit, `OUTLEN` is their number and the meaningful bytes are they. -/
theorem State.outlen_setOut {bytes : List Byte} (h : bytes.length ≤ 64) :
    (s.setOut bytes).outlen.toNat = bytes.length := by
  simp only [State.setOut_outlen, BitVec.toNat_ofNat]
  omega

theorem State.outBytes_setOut {bytes : List Byte} (h : bytes.length ≤ 64) : (s.setOut bytes).outBytes = bytes := by
  apply List.ext_getElem?
  intro i
  rw [State.outBytes, State.outlen_setOut s h, List.getElem?_take]
  split
  · rename_i hi
    have : i < 64 := by omega
    simp [this, hi]
  · rename_i hi
    simp [List.getElem?_eq_none (Nat.le_of_not_lt hi)]

end Sys2Proof.Machine
end

