-- ==== Sys2Proof/Laws/Fields.lean ====
section
/-!
SUPPORT. The 4-byte and 8-byte fields of `BUF`: what a field write stores, what a field read returns, and that one undoes
the other.
-/

namespace Sys2Proof.Machine

/-! ## Bytes of a limb -/

theorem fieldBytes_length (order : ByteOrder) (x : Limb) : (fieldBytes order x).length = 4 := by
  cases order <;> rfl

/-- Each byte of `bytesOfLimb` as a number. -/
theorem limbByte_toNat (x : Limb) (hi lo : Nat) (h : hi + 1 - lo = 8) :
    (BitVec.ofNat 8 (bitField x hi lo)).toNat = x.toNat / 2 ^ lo % 2 ^ 8 := by
  rw [BitVec.toNat_ofNat, bitField, h, Nat.mod_mod]

theorem limbOfBytes_bytesOfLimb (x : Limb) : limbOfBytes (bytesOfLimb x) = x := by
  have := x.isLt
  apply BitVec.eq_of_toNat_eq
  simp only [limbOfBytes, bytesOfLimb, List.foldl_cons, List.foldl_nil]
  rw [limbByte_toNat x 31 24 rfl, limbByte_toNat x 23 16 rfl, limbByte_toNat x 15 8 rfl,
    limbByte_toNat x 7 0 rfl, BitVec.toNat_ofNat]
  omega

theorem bytesOfLimb_limbOfBytes (b0 b1 b2 b3 : Byte) :
    bytesOfLimb (limbOfBytes [b0, b1, b2, b3]) = [b0, b1, b2, b3] := by
  have h0 := b0.isLt
  have h1 := b1.isLt
  have h2 := b2.isLt
  have h3 := b3.isLt
  have e : (limbOfBytes [b0, b1, b2, b3]).toNat =
      b0.toNat * 2 ^ 24 + b1.toNat * 2 ^ 16 + b2.toNat * 2 ^ 8 + b3.toNat := by
    simp only [limbOfBytes, List.foldl_cons, List.foldl_nil]
    rw [BitVec.toNat_ofNat]
    omega
  have hb : ∀ (b : Byte) (hi lo : Nat), hi + 1 - lo = 8 →
      (limbOfBytes [b0, b1, b2, b3]).toNat / 2 ^ lo % 2 ^ 8 = b.toNat →
      BitVec.ofNat 8 (bitField (limbOfBytes [b0, b1, b2, b3]) hi lo) = b := by
    intro b hi lo h hv
    apply BitVec.eq_of_toNat_eq
    rw [limbByte_toNat _ _ _ h, hv]
  rw [bytesOfLimb, hb b0 31 24 rfl (by rw [e]; omega), hb b1 23 16 rfl (by rw [e]; omega),
    hb b2 15 8 rfl (by rw [e]; omega), hb b3 7 0 rfl (by rw [e]; omega)]

/-- Reading back the bytes of a limb (20_memory.md R56). -/
theorem fieldLimb_fieldBytes (order : ByteOrder) (x : Limb) : fieldLimb order (fieldBytes order x) = x := by
  cases order
  · exact limbOfBytes_bytesOfLimb x
  · rw [fieldLimb, fieldBytes, List.reverse_reverse, limbOfBytes_bytesOfLimb]

/-- The bytes of the limb four bytes stand for. -/
theorem fieldBytes_fieldLimb (order : ByteOrder) (b0 b1 b2 b3 : Byte) :
    fieldBytes order (fieldLimb order [b0, b1, b2, b3]) = [b0, b1, b2, b3] := by
  cases order
  · exact bytesOfLimb_limbOfBytes ..
  · rw [fieldBytes, fieldLimb]
    simp only [List.reverse_cons, List.reverse_nil, List.nil_append, List.cons_append]
    rw [bytesOfLimb_limbOfBytes]
    rfl

/-! ## The 8-byte field -/

/-- The 8 bytes of a field in order of address (20_memory.md R57). -/
def valueBytes (order : ByteOrder) (v : Value) : List Byte :=
  match order with
  | .be => fieldBytes .be v.high ++ fieldBytes .be v.low
  | .le => fieldBytes .le v.low ++ fieldBytes .le v.high

theorem valueBytes_length (order : ByteOrder) (v : Value) : (valueBytes order v).length = 8 := by
  cases order <;> rfl

/-- The 8 bytes determine the value. -/
theorem valueBytes_inj {order : ByteOrder} {v w : Value} (h : valueBytes order v = valueBytes order w) : v = w := by
  have hb : ∀ x y : Limb, fieldBytes order x = fieldBytes order y → x = y := by
    intro x y e
    rw [← fieldLimb_fieldBytes order x, e, fieldLimb_fieldBytes]
  obtain ⟨vh, vl⟩ := v
  obtain ⟨wh, wl⟩ := w
  cases order
  · obtain ⟨h1, h2⟩ := List.append_inj h rfl
    rw [show vh = wh from hb _ _ h1, show vl = wl from hb _ _ h2]
  · obtain ⟨h1, h2⟩ := List.append_inj h rfl
    rw [show vl = wl from hb _ _ h1, show vh = wh from hb _ _ h2]

theorem bytesOf_eq (v : Value) : bytesOf v = valueBytes .be v := rfl

theorem Memory.writeList_append (m : Memory) (a : Nat) (bs cs : List Byte) :
    Memory.writeList m a (bs ++ cs) = Memory.writeList (Memory.writeList m a bs) (a + bs.length) cs := by
  induction bs generalizing m a with
  | nil => rfl
  | cons b bs ih =>
    rw [List.cons_append, Memory.writeList, ih, Memory.writeList, List.length_cons]
    congr 1
    omega

/-- A field write inside `BUF` stores the 8 bytes and touches nothing else. -/
theorem State.writeField_eq (s : State) {addr : Nat} (order : ByteOrder) (v : Value)
    (h : addr + 8 ≤ s.cfg.bufSize) :
    s.writeField addr order v = some { s with buf := Memory.writeList s.buf addr (valueBytes order v) } := by
  have h1 : addr + 4 ≤ s.cfg.bufSize := by omega
  have h2 : addr + 4 + 4 ≤ s.cfg.bufSize := by omega
  cases order <;>
  · simp only [State.writeField, State.memWrite32, State.memWrite, fieldBytes_length, h1, h2, if_true,
      Option.bind_some, valueBytes, Memory.writeList_append]

/-- A field read inside `BUF` returns the value whose 8 bytes stand there. -/
theorem State.readField_eq (s : State) {addr : Nat} (order : ByteOrder) (h : addr + 8 ≤ s.cfg.bufSize) :
    ∃ v, s.readField addr order = some v ∧
      valueBytes order v = (List.range 8).map fun i => Memory.read s.buf (addr + i) := by
  have h1 : addr + 4 ≤ s.cfg.bufSize := by omega
  have h2 : addr + 4 + 4 ≤ s.cfg.bufSize := by omega
  have e : ∀ a, (List.range 4).map (fun i => Memory.read s.buf (a + i)) =
      [Memory.read s.buf a, Memory.read s.buf (a + 1), Memory.read s.buf (a + 2), Memory.read s.buf (a + 3)] :=
    fun a => rfl
  cases order
  all_goals
    simp only [State.readField, State.memRead32, State.memRead, h1, h2, if_true, Option.map_some]
    refine ⟨_, rfl, ?_⟩
    simp only [valueBytes, e, fieldBytes_fieldLimb]
    rfl

/-- Reading a field where it was written, in the same order (46_byte_serialization.md R199). -/
theorem State.readField_writeField {s t : State} {addr : Nat} {order : ByteOrder} {v : Value}
    (h : addr + 8 ≤ s.cfg.bufSize) (ht : s.writeField addr order v = some t) :
    t.readField addr order = some v := by
  rw [s.writeField_eq order v h] at ht
  cases ht
  obtain ⟨w, hw, hb⟩ := State.readField_eq { s with buf := Memory.writeList s.buf addr (valueBytes order v) } order h
  rw [hw]
  congr 1
  apply valueBytes_inj (order := order)
  rw [hb]
  apply List.ext_getElem
  · simp [valueBytes_length]
  · intro i hi1 hi2
    have hi : i < 8 := by simpa using hi1
    simp [Memory.read_writeList, valueBytes_length, hi]

end Sys2Proof.Machine
end

