-- ==== Sys2Proof/Laws/Numeral.lean ====
section
/-!
SUPPORT. The digit loop computes the base-10 digits of the 64-bit magnitude, and how long the five renderings are.
-/

namespace Sys2Proof

/-- The range of the signed reading (10_state.md R21). -/
theorem Value.s64_range (v : Value) : -2 ^ 63 ≤ v.s64 ∧ v.s64 < 2 ^ 63 := by
  have := v.u64_lt
  rw [Value.s64_eq]
  split <;> omega

namespace Machine

theorem toNat_ofNat32 {n : Nat} (h : n < 2 ^ 32) : (BitVec.ofNat 32 n).toNat = n := by
  rw [BitVec.toNat_ofNat, Nat.mod_eq_of_lt h]

/-- The base-10 numeral of a number as characters. -/
def numeral (n : Nat) : List Byte := if n = 0 then [digitChar 0] else (Nat.digits 10 n).reverse.map digitChar

theorem numeral_of_lt {n : Nat} (h : n < 10) : numeral n = [digitChar n] := by
  by_cases hz : n = 0
  · simp [numeral, hz]
  · simp [numeral, hz, Nat.digits_of_lt 10 n hz h]

theorem numeral_of_ge {n : Nat} (h : 10 ≤ n) : numeral n = numeral (n / 10) ++ [digitChar (n % 10)] := by
  rw [numeral, numeral, if_neg (by omega), if_neg (by omega), Nat.digits_def' (by decide) (by omega : 0 < n)]
  simp

/-- One division step of the digit loop (45_string_conversion.md R172 a). -/
theorem digitStep (h l : Limb) :
    (⟨BitVec.ofNat 32 (h.toNat / 10), BitVec.ofNat 32 ((h.toNat % 10 * 2 ^ 32 + l.toNat) / 10)⟩ : Value).u64 =
      (⟨h, l⟩ : Value).u64 / 10 ∧
    (h.toNat % 10 * 2 ^ 32 + l.toNat) % 10 = (⟨h, l⟩ : Value).u64 % 10 := by
  have hl := l.isLt
  have hh := h.isLt
  simp only [Value.u64]
  rw [toNat_ofNat32 (by omega), toNat_ofNat32 (by omega)]
  omega

/-- The loop stops exactly at a magnitude below 10. -/
theorem digitStop (h l : Limb) : (h = 0 ∧ l.toNat < 10) ↔ (⟨h, l⟩ : Value).u64 < 10 := by
  have hl := l.isLt
  have hh := h.isLt
  simp only [Value.u64]
  constructor
  · rintro ⟨rfl, hs⟩
    simpa using hs
  · intro hs
    exact ⟨BitVec.eq_of_toNat_eq (by rw [show h.toNat = 0 by omega]; rfl), by omega⟩

/-- With enough fuel the loop puts the numeral of the magnitude before the digits it was given. -/
theorem ustrLoop_eq (fuel : Nat) (h l : Limb) (str : List Byte) (hf : (⟨h, l⟩ : Value).u64 < 10 ^ (fuel + 1)) :
    ustrLoop fuel h l str = numeral (⟨h, l⟩ : Value).u64 ++ str := by
  induction fuel generalizing h l str with
  | zero =>
    have hs : (⟨h, l⟩ : Value).u64 < 10 := by simpa using hf
    obtain ⟨rfl, -⟩ := (digitStop h l).mpr hs
    rw [numeral_of_lt hs, ustrLoop]
    simp [Value.u64]
  | succ fuel ih =>
    rw [ustrLoop]
    by_cases hs : (⟨h, l⟩ : Value).u64 < 10
    · have hc := (digitStop h l).mpr hs
      rw [if_pos hc, numeral_of_lt hs]
      obtain ⟨rfl, -⟩ := hc
      simp [Value.u64]
    · rw [if_neg (fun hc => hs ((digitStop h l).mp hc))]
      obtain ⟨e1, e2⟩ := digitStep h l
      rw [ih _ _ _ (by rw [e1]; rw [Nat.pow_succ] at hf; omega), e1, e2,
        numeral_of_ge (n := (⟨h, l⟩ : Value).u64) (by omega)]
      simp

/-- `ustr` renders the unsigned reading. -/
theorem ustrOf_eq (v : Value) : ustrOf v = numeral v.u64 := by
  rw [ustrOf, ustrLoop_eq _ _ _ _ (Nat.lt_trans v.u64_lt (by decide)), List.append_nil]

theorem numeral_length_pos (n : Nat) : 1 ≤ (numeral n).length := by
  by_cases hz : n = 0
  · simp [numeral, hz]
  · rw [numeral, if_neg hz, List.length_map, List.length_reverse, Nat.length_digits 10 n (by decide) hz]
    omega

theorem numeral_length_le {n k : Nat} (hk : 1 ≤ k) (h : n < 10 ^ k) : (numeral n).length ≤ k := by
  by_cases hz : n = 0
  · simpa [numeral, hz] using hk
  · rw [numeral, if_neg hz, List.length_map, List.length_reverse]
    exact (Nat.digits_length_le_iff (by decide) n).2 h

theorem ustrOf_length_le (v : Value) : (ustrOf v).length ≤ 20 := by
  rw [ustrOf_eq]
  exact numeral_length_le (by decide) (Nat.lt_trans v.u64_lt (by decide))

/-- `SSTR` renders the signed reading. -/
theorem sstrOf_eq (v : Value) :
    sstrOf v = if v.s64 < 0 then minusChar :: numeral v.s64.natAbs else numeral v.s64.natAbs := by
  have hv := v.u64_lt
  have hn : v.s64 < 0 ↔ v.signBit = true := by
    rw [Value.signBit_iff, Value.s64_eq]
    split <;> omega
  have ha : v.s64.natAbs = if v.signBit then (2 ^ 64 - v.u64) % 2 ^ 64 else v.u64 := by
    by_cases h : v.signBit = true
    · have := v.signBit_iff.mp h
      rw [if_pos h, Value.s64_eq, if_pos this]
      omega
    · have := mt v.signBit_iff.mpr h
      rw [if_neg h, Value.s64_eq, if_neg this]
      omega
  rw [sstrOf, ha]
  by_cases h : v.signBit = true
  · rw [if_pos h, if_pos h, if_pos (hn.mpr h), ustrOf_eq, negateValue_u64]
  · rw [if_neg h, if_neg h, if_neg (mt hn.mp h), ustrOf_eq]

theorem sstrOf_length_le (v : Value) : (sstrOf v).length ≤ 20 := by
  have hr := v.s64_range
  have hl : (numeral v.s64.natAbs).length ≤ 19 :=
    numeral_length_le (by decide) (Nat.lt_of_le_of_lt (show v.s64.natAbs ≤ 2 ^ 63 by omega) (by decide))
  rw [sstrOf_eq]
  split
  · rw [List.length_cons]; omega
  · omega

theorem hexOf_length (v : Value) : (hexOf v).length = 16 := rfl

theorem valueBits_length (v : Value) : (valueBits v).length = 64 := by
  simp [valueBits, limbBits]

theorem bstrOf_length (v : Value) : (bstrOf v).length = 64 := by
  rw [bstrOf, List.length_map, valueBits_length]

theorem bitsOf_length (v : Value) : (bitsOf v).length = 64 := by
  rw [bitsOf, List.length_map, valueBits_length]

/-- The bit sequence is the 64-bit word read from bit 63 down (45_string_conversion.md R178). -/
theorem valueBits_getElem (v : Value) (i : Nat) (h : i < 64) :
    (valueBits v)[i]'(by rw [valueBits_length]; exact h) = v.u64.testBit (63 - i) := by
  rw [Value.testBit_u64]
  simp only [valueBits, limbBits, List.getElem_append, List.length_map, List.length_range, List.getElem_map,
    List.getElem_range]
  by_cases h1 : i < 32
  · rw [dif_pos h1, if_neg (by omega), show 63 - i - 32 = 31 - i by omega]
  · rw [dif_neg h1, if_pos (by omega), show 31 - (i - 32) = 63 - i by omega]

end Machine

end Sys2Proof
end

