-- ==== Sys2Proof/Laws/PerInstr.lean ====
section
/-!
SUPPORT. The lemmas made per instruction. Family HeadWord: the command word of a well-formed command carries its
opcode in bits 31:24 and has every bit its format reserves at 0 (30_encoding.md R81, R82), for every operand.
-/

namespace Sys2Proof.Laws

/-- The encoder's first word is a legal command word of the command's own opcode and format. -/
def HeadWord.Statement (i : Instr) : Prop :=
  WellFormed i = true → bitField (commandWord i) 31 24 = i.opcode ∧ i.format.clear (commandWord i) = true

/-- A command word packed from fields that fit, whose sum leaves the format's reserved ranges at 0. -/
theorem HeadWord.of_packed {i : Instr} {op rd ra rb low : Nat} (f : Format) (hop : i.opcode = op)
    (hf : i.format = f) (hw : commandWord i = packWord op rd ra rb low)
    (h : WellFormed i = true → FieldsFit op rd ra rb low ∧ ∀ r ∈ f.reserved,
      (op * 2 ^ 24 + rd * 2 ^ 20 + ra * 2 ^ 16 + rb * 2 ^ 12 + low) / 2 ^ r.2 % 2 ^ (r.1 + 1 - r.2) = 0) :
    HeadWord.Statement i := by
  intro wf
  obtain ⟨fit, zero⟩ := h wf
  refine ⟨by rw [hw, packWord_op fit, hop], ?_⟩
  simp only [Format.clear, hf, hw, List.all_eq_true, beq_iff_eq, bitField_packWord fit]
  exact zero

theorem HeadWord.fromlimbs (rd : Reg) (high : Word) (low : Word) : HeadWord.Statement (.fromlimbs rd high low) := by
  have := rd.isLt
  refine HeadWord.of_packed (op := 0x10) (rd := rd.val) (ra := 0) (rb := 0)
    (low := 0) .lit rfl rfl rfl fun _ => ?_
  refine ⟨⟨by omega, by omega, by omega, by decide⟩, ?_⟩
  simp only [Format.reserved, List.mem_cons, List.not_mem_nil, or_false, forall_eq]
  omega

theorem HeadWord.fromint (rd : Reg) (sign : Bool) (mag : Nat) : HeadWord.Statement (.fromint rd sign mag) := by
  have := rd.isLt
  refine HeadWord.of_packed (op := 0x11) (rd := rd.val) (ra := 0) (rb := 0)
    (low := 0) .lit rfl rfl rfl fun _ => ?_
  refine ⟨⟨by omega, by omega, by omega, by decide⟩, ?_⟩
  simp only [Format.reserved, List.mem_cons, List.not_mem_nil, or_false, forall_eq]
  omega

theorem HeadWord.and (rd : Reg) (ra : Reg) (rb : Reg) : HeadWord.Statement (.and rd ra rb) := by
  have := rd.isLt
  have := ra.isLt
  have := rb.isLt
  refine HeadWord.of_packed (op := 0x20) (rd := rd.val) (ra := ra.val) (rb := rb.val)
    (low := 0) .r3 rfl rfl rfl fun _ => ?_
  refine ⟨⟨by omega, by omega, by omega, by omega⟩, ?_⟩
  simp only [Format.reserved, List.mem_cons, List.not_mem_nil, or_false, forall_eq]
  omega

theorem HeadWord.or (rd : Reg) (ra : Reg) (rb : Reg) : HeadWord.Statement (.or rd ra rb) := by
  have := rd.isLt
  have := ra.isLt
  have := rb.isLt
  refine HeadWord.of_packed (op := 0x21) (rd := rd.val) (ra := ra.val) (rb := rb.val)
    (low := 0) .r3 rfl rfl rfl fun _ => ?_
  refine ⟨⟨by omega, by omega, by omega, by omega⟩, ?_⟩
  simp only [Format.reserved, List.mem_cons, List.not_mem_nil, or_false, forall_eq]
  omega

theorem HeadWord.xor (rd : Reg) (ra : Reg) (rb : Reg) : HeadWord.Statement (.xor rd ra rb) := by
  have := rd.isLt
  have := ra.isLt
  have := rb.isLt
  refine HeadWord.of_packed (op := 0x22) (rd := rd.val) (ra := ra.val) (rb := rb.val)
    (low := 0) .r3 rfl rfl rfl fun _ => ?_
  refine ⟨⟨by omega, by omega, by omega, by omega⟩, ?_⟩
  simp only [Format.reserved, List.mem_cons, List.not_mem_nil, or_false, forall_eq]
  omega

theorem HeadWord.not (rd : Reg) (ra : Reg) : HeadWord.Statement (.not rd ra) := by
  have := rd.isLt
  have := ra.isLt
  refine HeadWord.of_packed (op := 0x23) (rd := rd.val) (ra := ra.val) (rb := 0)
    (low := 0) .r2 rfl rfl rfl fun _ => ?_
  refine ⟨⟨by omega, by omega, by omega, by decide⟩, ?_⟩
  simp only [Format.reserved, List.mem_cons, List.not_mem_nil, or_false, forall_eq]
  omega

theorem HeadWord.shl (rd : Reg) (ra : Reg) (n : Nat) : HeadWord.Statement (.shl rd ra n) := by
  have := rd.isLt
  have := ra.isLt
  refine HeadWord.of_packed (op := 0x30) (rd := rd.val) (ra := ra.val) (rb := 0)
    (low := n) .ri rfl rfl rfl fun wf => ?_
  have : n ≤ 255 := of_decide_eq_true wf
  refine ⟨⟨by omega, by omega, by omega, by omega⟩, ?_⟩
  simp only [Format.reserved, List.mem_cons, List.not_mem_nil, or_false, forall_eq]
  omega

theorem HeadWord.shrz (rd : Reg) (ra : Reg) (n : Nat) : HeadWord.Statement (.shrz rd ra n) := by
  have := rd.isLt
  have := ra.isLt
  refine HeadWord.of_packed (op := 0x31) (rd := rd.val) (ra := ra.val) (rb := 0)
    (low := n) .ri rfl rfl rfl fun wf => ?_
  have : n ≤ 255 := of_decide_eq_true wf
  refine ⟨⟨by omega, by omega, by omega, by omega⟩, ?_⟩
  simp only [Format.reserved, List.mem_cons, List.not_mem_nil, or_false, forall_eq]
  omega

theorem HeadWord.rotl (rd : Reg) (ra : Reg) (n : Nat) : HeadWord.Statement (.rotl rd ra n) := by
  have := rd.isLt
  have := ra.isLt
  refine HeadWord.of_packed (op := 0x32) (rd := rd.val) (ra := ra.val) (rb := 0)
    (low := n) .ri rfl rfl rfl fun wf => ?_
  have : n ≤ 255 := of_decide_eq_true wf
  refine ⟨⟨by omega, by omega, by omega, by omega⟩, ?_⟩
  simp only [Format.reserved, List.mem_cons, List.not_mem_nil, or_false, forall_eq]
  omega

theorem HeadWord.rotr (rd : Reg) (ra : Reg) (n : Nat) : HeadWord.Statement (.rotr rd ra n) := by
  have := rd.isLt
  have := ra.isLt
  refine HeadWord.of_packed (op := 0x33) (rd := rd.val) (ra := ra.val) (rb := 0)
    (low := n) .ri rfl rfl rfl fun wf => ?_
  have : n ≤ 255 := of_decide_eq_true wf
  refine ⟨⟨by omega, by omega, by omega, by omega⟩, ?_⟩
  simp only [Format.reserved, List.mem_cons, List.not_mem_nil, or_false, forall_eq]
  omega

theorem HeadWord.add (rd : Reg) (ra : Reg) (rb : Reg) : HeadWord.Statement (.add rd ra rb) := by
  have := rd.isLt
  have := ra.isLt
  have := rb.isLt
  refine HeadWord.of_packed (op := 0x40) (rd := rd.val) (ra := ra.val) (rb := rb.val)
    (low := 0) .r3 rfl rfl rfl fun _ => ?_
  refine ⟨⟨by omega, by omega, by omega, by omega⟩, ?_⟩
  simp only [Format.reserved, List.mem_cons, List.not_mem_nil, or_false, forall_eq]
  omega

theorem HeadWord.sub (rd : Reg) (ra : Reg) (rb : Reg) : HeadWord.Statement (.sub rd ra rb) := by
  have := rd.isLt
  have := ra.isLt
  have := rb.isLt
  refine HeadWord.of_packed (op := 0x41) (rd := rd.val) (ra := ra.val) (rb := rb.val)
    (low := 0) .r3 rfl rfl rfl fun _ => ?_
  refine ⟨⟨by omega, by omega, by omega, by omega⟩, ?_⟩
  simp only [Format.reserved, List.mem_cons, List.not_mem_nil, or_false, forall_eq]
  omega

theorem HeadWord.ucmp (ra : Reg) (rb : Reg) : HeadWord.Statement (.ucmp ra rb) := by
  have := ra.isLt
  have := rb.isLt
  refine HeadWord.of_packed (op := 0x50) (rd := 0) (ra := ra.val) (rb := rb.val)
    (low := 0) .cmp rfl rfl rfl fun _ => ?_
  refine ⟨⟨by omega, by omega, by omega, by omega⟩, ?_⟩
  simp only [Format.reserved, List.mem_cons, List.not_mem_nil, or_false, forall_eq_or_imp, forall_eq]
  omega

theorem HeadWord.scmp (ra : Reg) (rb : Reg) : HeadWord.Statement (.scmp ra rb) := by
  have := ra.isLt
  have := rb.isLt
  refine HeadWord.of_packed (op := 0x51) (rd := 0) (ra := ra.val) (rb := rb.val)
    (low := 0) .cmp rfl rfl rfl fun _ => ?_
  refine ⟨⟨by omega, by omega, by omega, by omega⟩, ?_⟩
  simp only [Format.reserved, List.mem_cons, List.not_mem_nil, or_false, forall_eq_or_imp, forall_eq]
  omega

theorem HeadWord.ustr (ra : Reg) : HeadWord.Statement (.ustr ra) := by
  have := ra.isLt
  refine HeadWord.of_packed (op := 0x60) (rd := 0) (ra := ra.val) (rb := 0)
    (low := 0) .src rfl rfl rfl fun _ => ?_
  refine ⟨⟨by omega, by omega, by omega, by decide⟩, ?_⟩
  simp only [Format.reserved, List.mem_cons, List.not_mem_nil, or_false, forall_eq_or_imp, forall_eq]
  omega

theorem HeadWord.sstr (ra : Reg) : HeadWord.Statement (.sstr ra) := by
  have := ra.isLt
  refine HeadWord.of_packed (op := 0x61) (rd := 0) (ra := ra.val) (rb := 0)
    (low := 0) .src rfl rfl rfl fun _ => ?_
  refine ⟨⟨by omega, by omega, by omega, by decide⟩, ?_⟩
  simp only [Format.reserved, List.mem_cons, List.not_mem_nil, or_false, forall_eq_or_imp, forall_eq]
  omega

theorem HeadWord.hex (ra : Reg) : HeadWord.Statement (.hex ra) := by
  have := ra.isLt
  refine HeadWord.of_packed (op := 0x62) (rd := 0) (ra := ra.val) (rb := 0)
    (low := 0) .src rfl rfl rfl fun _ => ?_
  refine ⟨⟨by omega, by omega, by omega, by decide⟩, ?_⟩
  simp only [Format.reserved, List.mem_cons, List.not_mem_nil, or_false, forall_eq_or_imp, forall_eq]
  omega

theorem HeadWord.bstr (ra : Reg) : HeadWord.Statement (.bstr ra) := by
  have := ra.isLt
  refine HeadWord.of_packed (op := 0x63) (rd := 0) (ra := ra.val) (rb := 0)
    (low := 0) .src rfl rfl rfl fun _ => ?_
  refine ⟨⟨by omega, by omega, by omega, by decide⟩, ?_⟩
  simp only [Format.reserved, List.mem_cons, List.not_mem_nil, or_false, forall_eq_or_imp, forall_eq]
  omega

theorem HeadWord.bits (ra : Reg) : HeadWord.Statement (.bits ra) := by
  have := ra.isLt
  refine HeadWord.of_packed (op := 0x64) (rd := 0) (ra := ra.val) (rb := 0)
    (low := 0) .src rfl rfl rfl fun _ => ?_
  refine ⟨⟨by omega, by omega, by omega, by decide⟩, ?_⟩
  simp only [Format.reserved, List.mem_cons, List.not_mem_nil, or_false, forall_eq_or_imp, forall_eq]
  omega

theorem HeadWord.bytes (ra : Reg) : HeadWord.Statement (.bytes ra) := by
  have := ra.isLt
  refine HeadWord.of_packed (op := 0x70) (rd := 0) (ra := ra.val) (rb := 0)
    (low := 0) .src rfl rfl rfl fun _ => ?_
  refine ⟨⟨by omega, by omega, by omega, by decide⟩, ?_⟩
  simp only [Format.reserved, List.mem_cons, List.not_mem_nil, or_false, forall_eq_or_imp, forall_eq]
  omega

theorem HeadWord.enc (ra : Reg) (order : ByteOrder) : HeadWord.Statement (.enc ra order) := by
  have := ra.isLt
  have : order.bit ≤ 1 := by cases order <;> decide
  refine HeadWord.of_packed (op := 0x71) (rd := 0) (ra := ra.val) (rb := 0)
    (low := order.bit) .enc rfl rfl rfl fun _ => ?_
  refine ⟨⟨by omega, by omega, by omega, by omega⟩, ?_⟩
  simp only [Format.reserved, List.mem_cons, List.not_mem_nil, or_false, forall_eq_or_imp, forall_eq]
  omega

theorem HeadWord.dec (rd : Reg) (order : ByteOrder) : HeadWord.Statement (.dec rd order) := by
  have := rd.isLt
  have : order.bit ≤ 1 := by cases order <;> decide
  refine HeadWord.of_packed (op := 0x72) (rd := rd.val) (ra := 0) (rb := 0)
    (low := order.bit) .dec rfl rfl rfl fun _ => ?_
  refine ⟨⟨by omega, by omega, by omega, by omega⟩, ?_⟩
  simp only [Format.reserved, List.mem_cons, List.not_mem_nil, or_false, forall_eq]
  omega

theorem HeadWord.seek (imm : BitVec 16) : HeadWord.Statement (.seek imm) := by
  have := imm.isLt
  refine HeadWord.of_packed (op := 0x73) (rd := 0) (ra := 0) (rb := 0)
    (low := imm.toNat) .imm rfl rfl rfl fun _ => ?_
  refine ⟨⟨by omega, by omega, by omega, by omega⟩, ?_⟩
  simp only [Format.reserved, List.mem_cons, List.not_mem_nil, or_false, forall_eq]
  omega

theorem HeadWord.setlen (imm : BitVec 16) : HeadWord.Statement (.setlen imm) := by
  have := imm.isLt
  refine HeadWord.of_packed (op := 0x74) (rd := 0) (ra := 0) (rb := 0)
    (low := imm.toNat) .imm rfl rfl rfl fun _ => ?_
  refine ⟨⟨by omega, by omega, by omega, by omega⟩, ?_⟩
  simp only [Format.reserved, List.mem_cons, List.not_mem_nil, or_false, forall_eq]
  omega

end Sys2Proof.Laws
end

