-- ==== Sys2Proof/Laws/ShiftRotate.lean ====
section
/-!
SUPPORT. What the four functions of the shift and rotate engine do to each bit of the 64-bit value, and to the value as an
integer.
-/

namespace Sys2Proof

/-- Two values with the same 64 bits are the same. -/
theorem Value.ext_testBit {a b : Value} (h : ∀ k, k < 64 → a.u64.testBit k = b.u64.testBit k) : a = b := by
  apply Value.ext_u64
  apply Nat.eq_of_testBit_eq
  intro k
  by_cases hk : k < 64
  · exact h k hk
  · rw [Nat.testBit_lt_two_pow (Nat.lt_of_lt_of_le a.u64_lt (Nat.pow_le_pow_right (by decide) (by omega))),
      Nat.testBit_lt_two_pow (Nat.lt_of_lt_of_le b.u64_lt (Nat.pow_le_pow_right (by decide) (by omega)))]

namespace Machine

/-- `SHL` bit by bit. -/
theorem testBit_shlValue (v : Value) (n k : Nat) (hk : k < 64) : (shlValue v n).u64.testBit k = (decide (n ≤ k) && v.u64.testBit (k - n)) := by
  simp only [Value.testBit_u64, shlValue, shl32_eq, shr32_eq]
  by_cases hn : n > 32 <;> simp only [hn, if_true, if_false, BitVec.getLsbD_shiftLeft, BitVec.getLsbD_or, BitVec.getLsbD_ushiftRight]
  · by_cases h : k < 32
    · simp [h]; omega
    · by_cases h2 : n ≤ k
      · have : k - n < 32 := by omega
        have e : k - 32 - (n - 32) = k - n := by omega
        simp [h, h2, this, e]; omega
      · simp [h, h2]; omega
  · by_cases h : k < 32
    · by_cases h2 : n ≤ k
      · simp [h, h2, show k - n < 32 by omega]
      · simp [h, h2, show k < n by omega]
    · by_cases h3 : k - 32 < n
      · by_cases h2 : n ≤ k
        · simp [h, h2, h3, show k - n < 32 by omega, show 32 - n + (k - 32) = k - n by omega]
        · omega
      · simp [h, h3, show n ≤ k by omega, show ¬ k - n < 32 by omega, show k - 32 < 32 by omega, show k - 32 - n = k - n - 32 by omega]
        intro h'; exact absurd h' (by have := BitVec.getLsbD_of_ge v.low (32 - n + (k-32)) (by omega); simp [this])

/-- `SHRZ` bit by bit. -/
theorem testBit_shrzValue (v : Value) (n k : Nat) (hk : k < 64) : (shrzValue v n).u64.testBit k = (decide (k + n < 64) && v.u64.testBit (k + n)) := by
  simp only [Value.testBit_u64, shrzValue, shl32_eq, shr32_eq]
  by_cases hn : n > 32
  · simp only [hn, if_true, BitVec.getLsbD_ushiftRight]
    by_cases h : k < 32
    · by_cases h2 : k + n < 64
      · simp [h, h2, show ¬ k + n < 32 by omega, show n - 32 + k = k + n - 32 by omega]
      · simp [h, h2]; apply BitVec.getLsbD_of_ge; omega
    · simp [h]; intro; omega
  · by_cases hn2 : n = 32
    · subst n
      by_cases h : k < 32
      · simp [h, show k + 32 < 64 by omega]
      · simp [h, show ¬ k + 32 < 64 by omega]
    · simp only [hn, hn2, if_false, BitVec.getLsbD_shiftLeft, BitVec.getLsbD_or, BitVec.getLsbD_ushiftRight]
      by_cases h : k < 32
      · by_cases h3 : k + n < 32
        · simp [h, h3, show k + n < 64 by omega, show n + k = k + n by omega, show k < 32 - n by omega]
        · simp [h, h3, show k + n < 64 by omega, show ¬ k < 32 - n by omega, show k - (32 - n) = k + n - 32 by omega]
          intro h'; exact absurd h' (by have := BitVec.getLsbD_of_ge v.low (n + k) (by omega); simp [this])
      · by_cases h3 : k + n < 64
        · simp [h, h3, show ¬ k + n < 32 by omega, show n + (k - 32) = k + n - 32 by omega]
        · simp [h, h3]; apply BitVec.getLsbD_of_ge; omega

/-- `ROTR` bit by bit. -/
theorem testBit_rotrValue (v : Value) (n k : Nat) (hk : k < 64) : (rotrValue v n).u64.testBit k = v.u64.testBit ((k + n) % 64) := by
  have e1 : (k + n) % 64 = if k + n % 64 < 64 then k + n % 64 else k + n % 64 - 64 := by split <;> omega
  rw [e1]
  have hr : n % 64 < 64 := Nat.mod_lt _ (by decide)
  simp only [rotrValue]
  generalize n % 64 = r at *
  simp only [Value.testBit_u64, shl32_eq, shr32_eq, apply_ite Value.low, apply_ite Value.high]
  by_cases h0 : r = 0
  · subst r; simp [hk]
  by_cases h32 : r = 32
  · subst r; by_cases h : k < 32 
    · simp [h, show k + 32 < 64 by omega]
    · simp [h, show ¬ k + 32 < 64 by omega, show k + 32 - 64 = k - 32 by omega, show k - 32 < 32 by omega]
  simp only [h0, h32, if_false]
  by_cases hr32 : r < 32
  · simp only [hr32, if_true, BitVec.getLsbD_shiftLeft, BitVec.getLsbD_or, BitVec.getLsbD_ushiftRight]
    by_cases h : k < 32
    · by_cases h2 : k + r < 32
      · simp [h, h2, show k + r < 64 by omega, show r + k = k + r by omega, show k < 32 - r by omega]
      · have := BitVec.getLsbD_of_ge v.low (r + k) (by omega)
        simp [h, h2, this, show k + r < 64 by omega, show ¬ k < 32 - r by omega, show k - (32 - r) = k + r - 32 by omega]
    · by_cases h2 : k + r < 64
      · simp [h, h2, show ¬ k + r < 32 by omega, show r + (k - 32) = k + r - 32 by omega, show k - 32 < 32 - r by omega]
      · have := BitVec.getLsbD_of_ge v.high (r + (k - 32)) (by omega)
        simp [h, h2, this, show k + r - 64 < 32 by omega, show ¬ k - 32 < 32 - r by omega, show k - 32 < 32 by omega, show k - 32 - (32 - r) = k + r - 64 by omega]
  · simp only [hr32, if_false, BitVec.getLsbD_shiftLeft, BitVec.getLsbD_or, BitVec.getLsbD_ushiftRight]
    by_cases h : k < 32
    · by_cases h2 : k < 64 - r
      · simp [h, h2, show k + r < 64 by omega, show ¬ k + r < 32 by omega, show 32 - (64 - r) + k = k + r - 32 by omega]
      · have := BitVec.getLsbD_of_ge v.high (32 - (64 - r) + k) (by omega)
        simp [h, h2, this, show ¬ k + r < 64 by omega, show k - (64 - r) = k + r - 64 by omega, show k + r - 64 < 32 by omega]
    · by_cases h2 : k - 32 < 64 - r
      · simp [h, h2, show ¬ k + r < 64 by omega,  show k + r - 64 < 32 by omega, show 32 - (64 - r) + (k-32) = k + r - 64 by omega]
      · have := BitVec.getLsbD_of_ge v.low (32 - (64 - r) + (k-32)) (by omega)
        simp [h, h2, this, show ¬ k + r < 64 by omega, show k - 32 - (64 - r) = k + r - 64 - 32 by omega, show ¬ k + r - 64 < 32 by omega, show k - 32 < 32 by omega]

/-- `ROTL` is `ROTR` by the complementary amount. -/
theorem rotlValue_eq_rotrValue (v : Value) (n : Nat) : rotlValue v n = rotrValue v ((64 - n % 64) % 64) := by
  have hr : n % 64 < 64 := Nat.mod_lt _ (by decide)
  simp only [rotlValue, rotrValue, Nat.mod_mod]
  generalize n % 64 = r at *
  by_cases h0 : r = 0
  · subst r; simp
  by_cases h32 : r = 32
  · subst r; simp
  by_cases hr32 : r < 32
  · have : (64 - r) % 64 = 64 - r := by omega
    have e : 64 - (64 - r) = r := by omega
    simp [h0, h32, hr32, this, e]
    rw [if_neg (by omega), if_neg (by omega), if_neg (by omega)]
  · have : (64 - r) % 64 = 64 - r := by omega
    simp [h0, h32, hr32, this]
    rw [if_neg (by omega), if_neg (by omega), if_pos (by omega), show 32 - (64 - r) = r - 32 by omega, show 32 - (r - 32) = 64 - r by omega]
    rw [BitVec.or_comm, BitVec.or_comm (shl32 v.high _)]

/-- `ROTL` bit by bit, by where the bit comes from. -/
theorem testBit_rotlValue (v : Value) (n k : Nat) (hk : k < 64) :
    (rotlValue v n).u64.testBit k = v.u64.testBit ((k + (64 - n % 64)) % 64) := by
  rw [rotlValue_eq_rotrValue, testBit_rotrValue _ _ _ hk]
  congr 1
  omega

/-- `SHL` is multiplication modulo `2^64`. -/
theorem shlValue_u64 (v : Value) (n : Nat) : (shlValue v n).u64 = v.u64 * 2 ^ n % 2 ^ 64 := by
  apply Nat.eq_of_testBit_eq
  intro k
  by_cases hk : k < 64
  · rw [testBit_shlValue _ _ _ hk, Nat.testBit_mod_two_pow, Nat.mul_comm, Nat.testBit_two_pow_mul]
    simp [hk]
  · rw [Nat.testBit_lt_two_pow (Nat.lt_of_lt_of_le (Value.u64_lt _) (Nat.pow_le_pow_right (by decide) (by omega))),
      Nat.testBit_mod_two_pow]
    simp [hk]

/-- `SHRZ` is floor division. -/
theorem shrzValue_u64 (v : Value) (n : Nat) : (shrzValue v n).u64 = v.u64 / 2 ^ n := by
  apply Nat.eq_of_testBit_eq
  intro k
  have hz : ∀ j, ¬ j < 64 → v.u64.testBit j = false := fun j hj =>
    Nat.testBit_lt_two_pow (Nat.lt_of_lt_of_le v.u64_lt (Nat.pow_le_pow_right (by decide) (by omega)))
  rw [Nat.testBit_div_two_pow]
  by_cases hk : k < 64
  · rw [testBit_shrzValue _ _ _ hk]
    by_cases h : k + n < 64
    · simp [h]
    · simp [h, hz _ h]
  · rw [Nat.testBit_lt_two_pow (Nat.lt_of_lt_of_le (Value.u64_lt _) (Nat.pow_le_pow_right (by decide) (by omega))),
      hz _ (by omega)]

/-- The bits above `r` of a left-moved value and the bits below `r` of what left it do not overlap. -/
theorem testBit_rotated {x r : Nat} (hx : x < 2 ^ 64) (hr : r ≤ 64) (k : Nat) :
    (x * 2 ^ r % 2 ^ 64 + x / 2 ^ (64 - r)).testBit k =
      if k < r then x.testBit (k + 64 - r) else decide (k < 64) && x.testBit (k - r) := by
  have e : x * 2 ^ r % 2 ^ 64 = 2 ^ r * (x % 2 ^ (64 - r)) := by
    rw [show 2 ^ 64 = 2 ^ r * 2 ^ (64 - r) by rw [← Nat.pow_add]; congr 1; omega, Nat.mul_comm x,
      Nat.mul_mod_mul_left]
  have hlt : x / 2 ^ (64 - r) < 2 ^ r := by
    rw [Nat.div_lt_iff_lt_mul (Nat.two_pow_pos _), ← Nat.pow_add, show r + (64 - r) = 64 by omega]
    exact hx
  rw [e, Nat.two_pow_add_eq_or_of_lt hlt, Nat.testBit_or, Nat.testBit_two_pow_mul, Nat.testBit_mod_two_pow,
    Nat.testBit_div_two_pow]
  by_cases hk : k < r
  · rw [if_pos hk, show k + (64 - r) = k + 64 - r by omega]
    simp [show ¬ r ≤ k by omega]
  · have h0 : x.testBit (k + (64 - r)) = false :=
      Nat.testBit_lt_two_pow (Nat.lt_of_lt_of_le hx (Nat.pow_le_pow_right (by decide) (by omega)))
    rw [if_neg hk, h0]
    by_cases h64 : k < 64
    · simp [show r ≤ k by omega, show k - r < 64 - r by omega, h64]
    · simp [show ¬ k - r < 64 - r by omega, h64]

/-- `ROTL` in integers. -/
theorem rotlValue_u64 (v : Value) (n : Nat) :
    (rotlValue v n).u64 = v.u64 * 2 ^ (n % 64) % 2 ^ 64 + v.u64 / 2 ^ (64 - n % 64) := by
  have hr : n % 64 < 64 := Nat.mod_lt _ (by decide)
  apply Nat.eq_of_testBit_eq
  intro k
  rw [testBit_rotated v.u64_lt (Nat.le_of_lt hr)]
  by_cases hk : k < 64
  · rw [testBit_rotlValue _ _ _ hk]
    by_cases h : k < n % 64
    · rw [if_pos h]; congr 1; omega
    · rw [if_neg h, show (k + (64 - n % 64)) % 64 = k - n % 64 by omega]
      simp [hk]
  · rw [if_neg (by omega), Nat.testBit_lt_two_pow (Nat.lt_of_lt_of_le (Value.u64_lt _)
      (Nat.pow_le_pow_right (by decide) (by omega)))]
    simp [hk]

/-- `ROTR` in integers. -/
theorem rotrValue_u64 (v : Value) (n : Nat) :
    (rotrValue v n).u64 = v.u64 / 2 ^ (n % 64) + v.u64 * 2 ^ (64 - n % 64) % 2 ^ 64 := by
  have hr : n % 64 < 64 := Nat.mod_lt _ (by decide)
  apply Nat.eq_of_testBit_eq
  intro k
  have e := testBit_rotated v.u64_lt (show 64 - n % 64 ≤ 64 by omega) k
  rw [show 64 - (64 - n % 64) = n % 64 by omega] at e
  rw [Nat.add_comm, e]
  by_cases hk : k < 64
  · rw [testBit_rotrValue _ _ _ hk]
    by_cases h : k < 64 - n % 64
    · rw [if_pos h]; congr 1; omega
    · rw [if_neg h, show (k + n) % 64 = k - (64 - n % 64) by omega]
      simp [hk]
  · rw [if_neg (by omega), Nat.testBit_lt_two_pow (Nat.lt_of_lt_of_le (Value.u64_lt _)
      (Nat.pow_le_pow_right (by decide) (by omega)))]
    simp [hk]

end Machine

end Sys2Proof
end

