-- ==== Sys2Proof/Laws/Step.lean ====
section
/-!
SUPPORT. What a step can do: the words it takes, the command it performs, the outcome of the commands with a condition,
and the invariant under each named operation.
-/

namespace Sys2Proof

/-! ## The decoder's verdicts -/

/-- What a verdict leaves behind: a command takes one or three words, an illegal word one. -/
def Decoded.Takes (ws : List Word) : Decoded → Prop
  | .command _ rest => (∃ w, ws = w :: rest) ∨ ∃ w word1 word2, ws = w :: word1 :: word2 :: rest
  | .illegal _ w rest => ws = w :: rest
  | .truncated => ∃ w rest, ws = w :: rest ∧ rest.length < 2
  | .noWord => ws = []

theorem oneWord_takes (i : Instr) (w : Word) (rest : List Word) : (oneWord i w rest).Takes (w :: rest) := by
  unfold oneWord
  split
  · exact .inl ⟨w, rfl⟩
  · exact rfl

theorem threeWords_takes (make : Word → Word → Instr) (w : Word) (rest : List Word) :
    (threeWords make w rest).Takes (w :: rest) := by
  unfold threeWords
  split
  · match rest with
    | [] => exact ⟨w, [], rfl, by decide⟩
    | [word1] => exact ⟨w, [word1], rfl, Nat.lt_succ_self 1⟩
    | word1 :: word2 :: rest' => exact .inr ⟨w, word1, word2, rfl⟩
  · exact rfl

/-- Every verdict of the decoder is about the head of its stream. -/
theorem decode_takes (ws : List Word) : (decode ws).Takes ws := by
  match ws with
  | [] => exact rfl
  | w :: rest =>
    simp only [decode]
    split <;> first | exact threeWords_takes .. | exact oneWord_takes .. | exact rfl

namespace Machine

/-! ## A step -/

/-- A step with a next state is the command at the head of the stream, or the fault of an illegal word. -/
theorem step_cases {s t : State} (h : step s = .next t) :
    s.halted = false ∧
    ((∃ i rest, decode s.stream = .command i rest ∧ exec i (s.consume rest) = .next t) ∨
      ∃ why w rest, decode s.stream = .illegal why w rest ∧ t = s.takeIllegal w rest) := by
  unfold step at h
  by_cases hh : s.halted = true
  · rw [if_pos hh] at h
    cases h
  · rw [if_neg hh] at h
    refine ⟨by simpa using hh, ?_⟩
    change (match decode s.stream with
      | .command i rest => exec i (s.consume rest)
      | .illegal _ word rest => Host.Outcome.next (s.takeIllegal word rest)
      | .truncated => .fault .streamTruncated
      | .noWord => .fault .streamEmpty) = .next t at h
    cases hd : decode s.stream with
    | command i rest =>
      rw [hd] at h
      exact .inl ⟨i, rest, rfl, h⟩
    | illegal why w rest =>
      rw [hd] at h
      cases h
      exact .inr ⟨why, w, rest, rfl, rfl⟩
    | truncated =>
      rw [hd] at h
      cases h
    | noWord =>
      rw [hd] at h
      cases h

/-- A running block performs the command at the head of its stream. -/
theorem step_command {s : State} {i : Instr} {rest : List Word} (hh : s.halted = false)
    (hd : decode s.stream = .command i rest) : step s = exec i (s.consume rest) := by
  rw [step, if_neg (by simp [hh]), State.fetch, hd]

/-- A running block faults on an illegal word at the head of its stream. -/
theorem step_illegal {s : State} {why : IllegalReason} {w : Word} {rest : List Word} (hh : s.halted = false)
    (hd : decode s.stream = .illegal why w rest) : step s = .next (s.takeIllegal w rest) := by
  rw [step, if_neg (by simp [hh]), State.fetch, hd]

/-! ## The commands with a condition -/

theorem execFromint_safe {rd : Reg} {sign : Bool} {mag : Nat} (s : State) (h : mag ≤ safeMagnitude) :
    execFromint rd sign mag s = .next (s.writeReg rd (valueOfSafeInt sign mag)) := if_pos h

theorem execFromint_free {rd : Reg} {sign : Bool} {mag : Nat} (s : State) (h : ¬ mag ≤ safeMagnitude) :
    execFromint rd sign mag s = .next ((s.writeReg rd s.freeValue).drawn) := if_neg h

theorem execEnc_overrun {ra : Reg} {order : ByteOrder} {s : State} (h : s.cur.toNat + 8 > s.cfg.bufSize) :
    execEnc ra order s = .next (s.raiseFault .encodeOverrun (commandWord (.enc ra order))) := if_pos h

theorem execEnc_stores {ra : Reg} {order : ByteOrder} {s : State} (h : s.cur.toNat + 8 ≤ s.cfg.bufSize) :
    execEnc ra order s = .next
      ({ s with buf := Memory.writeList s.buf s.cur.toNat (valueBytes order (s.readReg ra)) }.afterEncode
        s.cur.toNat) := by
  have hn : ¬ s.cur.toNat + 8 > s.cfg.bufSize := by omega
  simp only [execEnc, if_neg hn, s.writeField_eq order (s.readReg ra) h]

theorem afterEncode_buf (s : State) (a : Nat) : (s.afterEncode a).buf = s.buf := by
  unfold State.afterEncode
  split <;> rfl

theorem afterEncode_cur {s : State} {a : Nat} (h : a + 8 < 2 ^ 16) : (s.afterEncode a).cur.toNat = a + 8 := by
  have hc : (BitVec.ofNat 16 (a + 8)).toNat = a + 8 := by rw [BitVec.toNat_ofNat, Nat.mod_eq_of_lt h]
  unfold State.afterEncode
  split <;> simpa using hc

theorem afterEncode_len {s : State} {a : Nat} (h : a + 8 < 2 ^ 16) :
    (s.afterEncode a).len.toNat = max s.len.toNat (a + 8) := by
  have hc : (BitVec.ofNat 16 (a + 8)).toNat = a + 8 := by rw [BitVec.toNat_ofNat, Nat.mod_eq_of_lt h]
  unfold State.afterEncode
  split <;> simp only [State.setLen_len, State.setCur_len] <;> omega

/-- Nothing but `CUR` and `LEN`. -/
theorem afterEncode_rest (s : State) (a : Nat) :
    (s.afterEncode a).regs = s.regs ∧ (s.afterEncode a).ord = s.ord ∧ (s.afterEncode a).status = s.status ∧
      (s.afterEncode a).finfo = s.finfo ∧ (s.afterEncode a).outlen = s.outlen ∧ (s.afterEncode a).out = s.out ∧
      (s.afterEncode a).cfg = s.cfg ∧ (s.afterEncode a).stream = s.stream ∧ (s.afterEncode a).draws = s.draws := by
  unfold State.afterEncode
  split <;> exact ⟨rfl, rfl, rfl, rfl, rfl, rfl, rfl, rfl, rfl⟩

theorem execDec_short {rd : Reg} {order : ByteOrder} {s : State} (h : s.cur.toNat + 8 > s.len.toNat) :
    execDec rd order s = .next (s.setDF true) := if_pos h

theorem execDec_reads {rd : Reg} {order : ByteOrder} {s : State} (h : s.cur.toNat + 8 ≤ s.len.toNat)
    (hb : s.cur.toNat + 8 ≤ s.cfg.bufSize) :
    ∃ v, valueBytes order v = (List.range 8).map (fun i => Memory.read s.buf (s.cur.toNat + i)) ∧
      execDec rd order s =
        .next (((s.writeReg rd v).setCur (BitVec.ofNat 16 (s.cur.toNat + 8))).setDF false) := by
  have hn : ¬ s.cur.toNat + 8 > s.len.toNat := by omega
  obtain ⟨v, hv, hbytes⟩ := s.readField_eq order hb
  exact ⟨v, hbytes, by simp only [execDec, if_neg hn, hv]⟩

theorem execSetlen_bad {imm : BitVec 16} {s : State} (h : imm.toNat > s.cfg.bufSize) :
    execSetlen imm s = .next (s.raiseFault .badLength (commandWord (.setlen imm))) := if_pos h

theorem execSetlen_sets {imm : BitVec 16} {s : State} (h : imm.toNat ≤ s.cfg.bufSize) :
    execSetlen imm s = .next (s.setLen imm) := if_neg (by omega)

/-- Every command answers a next state where `LEN <= BUFSIZE`. -/
theorem exec_total (i : Instr) {s : State} (h : s.len.toNat ≤ s.cfg.bufSize) : ∃ t, exec i s = .next t := by
  cases i
  case fromint rd sign mag =>
    by_cases hc : mag ≤ safeMagnitude
    · exact ⟨_, execFromint_safe s hc⟩
    · exact ⟨_, execFromint_free s hc⟩
  case enc ra order =>
    by_cases hc : s.cur.toNat + 8 > s.cfg.bufSize
    · exact ⟨_, execEnc_overrun hc⟩
    · exact ⟨_, execEnc_stores (by omega)⟩
  case dec rd order =>
    by_cases hc : s.cur.toNat + 8 > s.len.toNat
    · exact ⟨_, execDec_short hc⟩
    · obtain ⟨v, _, hv⟩ := execDec_reads (rd := rd) (order := order) (s := s) (by omega) (by omega)
      exact ⟨_, hv⟩
  case setlen imm =>
    by_cases hc : imm.toNat > s.cfg.bufSize
    · exact ⟨_, execSetlen_bad hc⟩
    · exact ⟨_, execSetlen_sets (by omega)⟩
  all_goals exact ⟨_, rfl⟩

/-! ## The invariant under the named operations -/

namespace State

variable {s : State}

theorem Inv.writeReg (h : s.Inv) (r : Reg) (v : Value) : (s.writeReg r v).Inv := { h with }

theorem Inv.drawn (h : s.Inv) : s.drawn.Inv := { h with }

theorem Inv.consume (h : s.Inv) (rest : List Word) : (s.consume rest).Inv := { h with }

theorem Inv.hostPush (h : s.Inv) (words : List Word) : (s.hostPush words).Inv := { h with }

theorem Inv.setCur (h : s.Inv) (a : BitVec 16) : (s.setCur a).Inv := { h with }

theorem Inv.setLen (h : s.Inv) {n : BitVec 16} (hn : n.toNat ≤ s.cfg.bufSize) : (s.setLen n).Inv :=
  { h with len_le := hn }

theorem Inv.setOrd (h : s.Inv) {o : BitVec 2} (ho : o = ordEQ ∨ o = ordLT ∨ o = ordGT) : (s.setOrd o).Inv :=
  { h with ord_code := ho }

theorem Inv.setOut (h : s.Inv) {bytes : List Byte} (hb : bytes.length ≤ 64) : (s.setOut bytes).Inv :=
  { h with
    outlen_le := by rw [outlen_setOut s hb]; exact hb
    out_tail := by
      intro i hi
      rw [outlen_setOut s hb] at hi
      rw [hostOut_setOut, List.getD_eq_default _ _ hi] }

theorem Inv.setDF (h : s.Inv) (b : Bool) : (s.setDF b).Inv :=
  { h with
    status_reserved := by rw [setDF_status, statusReserved_withDF]; exact h.status_reserved
    no_fault := by
      intro hf
      have : s.halted = false := by simpa [halted] using hf
      have := h.no_fault this
      exact ⟨by rw [setDF_status, statusCause_withDF]; exact this.1, this.2⟩
    fault_cause := by
      intro hf
      have : s.halted = true := by simpa [halted] using hf
      rw [setDF_status, statusCause_withDF]
      exact h.fault_cause this }

theorem Inv.raiseFault (h : s.Inv) (c : Cause) (w : Word) : (s.raiseFault c w).Inv :=
  { h with
    status_reserved := by rw [raiseFault_status, statusReserved_withFault]; exact h.status_reserved
    no_fault := by
      intro hf
      simp [halted] at hf
    fault_cause := fun _ => ⟨c, by rw [raiseFault_status, statusCause_withFault]⟩ }

theorem Inv.writeList (h : s.Inv) {a : Nat} {bytes : List Byte} (hb : a + bytes.length ≤ s.cfg.bufSize) :
    { s with buf := Memory.writeList s.buf a bytes }.Inv :=
  { h with
    buf_wf := Memory.writeList_wf h.buf_wf bytes a
    buf_inside := by
      intro c hc
      rcases Memory.mem_writeList hc with hc | hc
      · exact Nat.lt_of_lt_of_le hc.2 hb
      · exact h.buf_inside c hc }

theorem Inv.afterEncode (h : s.Inv) {a : Nat} (ha : a + 8 ≤ s.cfg.bufSize) : (s.afterEncode a).Inv := by
  unfold State.afterEncode
  have hc := h.setCur (BitVec.ofNat 16 (a + 8))
  split
  · refine hc.setLen ?_
    rw [BitVec.toNat_ofNat]
    exact Nat.le_trans (Nat.mod_le ..) ha
  · exact hc

end State

end Machine

end Sys2Proof
end

