-- ==== Sys2Proof/Tests/Slice0.lean ====
section
/-!
SUPPORT. Tests on fixed values: the checks of WellFormed, words written out from 30_encoding.md and what they decode to,
one step of each command on a value of the rules' corner cases or of 95_test_vectors.md, and for each obligation with
hypotheses a state and operands that meet them.
-/

namespace Sys2Proof.Tests

open Sys2Proof.Machine Sys2Proof.Claims

/-! ## Ill-formed terms -/

theorem test_shl_amount_256_ill_formed : WellFormed (.shl 0 0 256) = false := by decide
theorem test_shrz_amount_256_ill_formed : WellFormed (.shrz 0 0 256) = false := by decide
theorem test_rotl_amount_256_ill_formed : WellFormed (.rotl 0 0 256) = false := by decide
theorem test_rotr_amount_256_ill_formed : WellFormed (.rotr 0 0 256) = false := by decide
theorem test_fromint_magnitude_ill_formed : WellFormed (.fromint 0 false (2 ^ 63)) = false := by decide

/-! ## Words written out from 30_encoding.md R81, R82, R86: op, rd, ra, rb, low bits -/

theorem test_decode_fromlimbs :
    decode [0b00010000_1111_0000_0000_000000000000, 1, 2, 3] = .command (.fromlimbs 15 1 2) [3] := by decide
theorem test_decode_fromint :
    decode [0b00010001_0011_0000_0000_000000000000, 0b1_0000000000111111111111111111111, 5] =
      .command (.fromint 3 true (0x1FFFFF * 2 ^ 32 + 5)) [] := by decide
theorem test_decode_and :
    decode [0b00100000_0001_0010_0011_000000000000] = .command (.and 1 2 3) [] := by decide
theorem test_decode_or :
    decode [0b00100001_1000_0100_0010_000000000000] = .command (.or 8 4 2) [] := by decide
theorem test_decode_xor :
    decode [0b00100010_1111_0000_1111_000000000000] = .command (.xor 15 0 15) [] := by decide
theorem test_decode_not :
    decode [0b00100011_0110_1001_0000_000000000000] = .command (.not 6 9) [] := by decide
theorem test_decode_shl :
    decode [0b00110000_0001_0010_0000_0000_11111111] = .command (.shl 1 2 255) [] := by decide
theorem test_decode_shrz :
    decode [0b00110001_0100_0011_0000_0000_00100000] = .command (.shrz 4 3 32) [] := by decide
theorem test_decode_rotl :
    decode [0b00110010_0001_0000_0000_0000_01000100] = .command (.rotl 1 0 68) [] := by decide
theorem test_decode_rotr :
    decode [0b00110011_0110_0101_0000_0000_00010100] = .command (.rotr 6 5 20) [] := by decide
theorem test_decode_add :
    decode [0b01000000_0010_0000_0001_000000000000] = .command (.add 2 0 1) [] := by decide
theorem test_decode_sub :
    decode [0b01000001_0010_0000_0001_000000000000] = .command (.sub 2 0 1) [] := by decide
theorem test_decode_ucmp :
    decode [0b01010000_0000_0111_1000_000000000000] = .command (.ucmp 7 8) [] := by decide
theorem test_decode_scmp :
    decode [0b01010001_0000_1111_1110_000000000000] = .command (.scmp 15 14) [] := by decide
theorem test_decode_ustr : decode [0b01100000_0000_0010_0000000000000000] = .command (.ustr 2) [] := by decide
theorem test_decode_sstr : decode [0b01100001_0000_0011_0000000000000000] = .command (.sstr 3) [] := by decide
theorem test_decode_hex : decode [0b01100010_0000_1111_0000000000000000] = .command (.hex 15) [] := by decide
theorem test_decode_bstr : decode [0b01100011_0000_0001_0000000000000000] = .command (.bstr 1) [] := by decide
theorem test_decode_bits : decode [0b01100100_0000_0100_0000000000000000] = .command (.bits 4) [] := by decide
theorem test_decode_bytes : decode [0b01110000_0000_1000_0000000000000000] = .command (.bytes 8) [] := by decide
theorem test_decode_enc :
    decode [0b01110001_0000_0101_000000000000000_1] = .command (.enc 5 .le) [] ∧
    decode [0b01110001_0000_0101_000000000000000_0] = .command (.enc 5 .be) [] := by decide
theorem test_decode_dec :
    decode [0b01110010_1010_0000_000000000000000_1] = .command (.dec 10 .le) [] ∧
    decode [0b01110010_1010_0000_000000000000000_0] = .command (.dec 10 .be) [] := by decide
theorem test_decode_seek :
    decode [0b01110011_00000000_1000000000000001] = .command (.seek 0x8001) [] := by decide
theorem test_decode_setlen :
    decode [0b01110100_00000000_0000000100000000] = .command (.setlen 256) [] := by decide

/-- R87: no opcode, and a reserved bit in each kind of format. -/
theorem test_decode_illegal :
    decode [0xFFFFFFFF, 7] = .illegal .unknownOpcode 0xFFFFFFFF [7] ∧
    decode [0x65000000] = .illegal .unknownOpcode 0x65000000 [] ∧
    decode [0x10000001, 1, 2] = .illegal .reservedBit 0x10000001 [1, 2] ∧
    decode [0x30000100] = .illegal .reservedBit 0x30000100 [] ∧
    decode [0x60100000] = .illegal .reservedBit 0x60100000 [] ∧
    decode [0x72010000] = .illegal .reservedBit 0x72010000 [] := by decide

/-- R89: a literal word missing, and no word at all. -/
theorem test_decode_truncated :
    decode [0x10000000, 1] = .truncated ∧ decode [0x11F00000] = .truncated ∧ decode [] = .noWord := by decide

/-- The opcode table's numbering: the first word is bits 31:0, a literal word that the table gives no bits is 0. -/
theorem test_decodeTableWord :
    decodeTableWord 32 0x40201000 = some (.add 2 0 1) ∧
    decodeTableWord 32 0x10300000 = some (.fromlimbs 3 0 0) ∧
    decodeTableWord 96 0x0000000700000009_10300000 = some (.fromlimbs 3 9 7) ∧
    decodeTableWord 32 0x00000000 = none := by decide

/-- R90. -/
theorem test_assemble :
    assembleWords "FROMINT v3, -42 ; comment" = some [0x11300000, 0x80000000, 0x0000002A] ∧
    assembleWords "ROTR v6, v5, #20" = some [0x33650014] ∧ assembleWords "SHL v0, v0, #256" = none ∧
    assembleWords "ADD v2, v16, v1" = none ∧ assembleWords "SEEK #0x10" = some [0x73000010] := by decide

/-! ## One step -/

/-- Reset with `v0` and `v1` written. -/
def two (a b : Value) : State := (State.reset.writeReg 0 a).writeReg 1 b

/-- What one command makes of a state. -/
def after (i : Instr) (s : State) : Option State :=
  match exec i s with
  | .next t => some t
  | .fault _ => none
  | .refused _ => none

/-- A register after one command. -/
def reg (r : Reg) (i : Instr) (s : State) : Option Value := (after i s).map (·.readReg r)

/-- The meaningful output after one command. -/
def output (i : Instr) (s : State) : Option (List Byte) := (after i s).map (·.outBytes)

theorem test_fromlimbs :
    reg 3 (.fromlimbs 3 0xDEADBEEF 0xBAAAAAAD) .reset = some ⟨0xDEADBEEF, 0xBAAAAAAD⟩ := by decide
theorem test_fromint_negative : reg 3 (.fromint 3 true 42) .reset = some ⟨0xFFFFFFFF, 0xFFFFFFD6⟩ := by decide
theorem test_fromint_bounds :
    reg 0 (.fromint 0 true (2 ^ 53 - 1)) .reset = some ⟨0xFFE00000, 0x00000001⟩ ∧
    reg 0 (.fromint 0 true (2 ^ 32)) .reset = some ⟨0xFFFFFFFF, 0⟩ ∧
    reg 0 (.fromint 0 true 0) .reset = some ⟨0, 0⟩ := by decide
theorem test_and : reg 2 (.and 2 0 1) (two ⟨0xDEADBEEF, 0xBAAAAAAD⟩ ⟨0x0F0F0F0F, 0xFFFF0000⟩) =
    some ⟨0x0E0D0E0F, 0xBAAA0000⟩ := by decide
theorem test_or : reg 2 (.or 2 0 1) (two ⟨0xDEADBEEF, 0xBAAAAAAD⟩ ⟨0x0F0F0F0F, 0xFFFF0000⟩) =
    some ⟨0xDFAFBFEF, 0xFFFFAAAD⟩ := by decide
theorem test_xor_onto_source : reg 0 (.xor 0 0 1) (two ⟨0xDEADBEEF, 0xBAAAAAAD⟩ ⟨0, 42⟩) =
    some ⟨0xDEADBEEF, 0xBAAAAA87⟩ := by decide
theorem test_not : reg 1 (.not 1 0) (two ⟨0xDEADBEEF, 0xBAAAAAAD⟩ ⟨0, 0⟩) =
    some ⟨0x21524110, 0x45555552⟩ := by decide
theorem test_shl_36 : reg 1 (.shl 1 0 36) (two ⟨0x01234567, 0x89ABCDEF⟩ ⟨0, 0⟩) =
    some ⟨0x9ABCDEF0, 0⟩ := by decide
theorem test_shl_edges :
    reg 1 (.shl 1 0 0) (two ⟨0x01234567, 0x89ABCDEF⟩ ⟨0, 0⟩) = some ⟨0x01234567, 0x89ABCDEF⟩ ∧
    reg 1 (.shl 1 0 32) (two ⟨0x01234567, 0x89ABCDEF⟩ ⟨0, 0⟩) = some ⟨0x89ABCDEF, 0⟩ ∧
    reg 1 (.shl 1 0 64) (two ⟨0x01234567, 0x89ABCDEF⟩ ⟨0, 0⟩) = some ⟨0, 0⟩ := by decide
theorem test_shrz_32 : reg 1 (.shrz 1 0 32) (two ⟨0xCAFEBABE, 0xFFFFFFFF⟩ ⟨0, 0⟩) =
    some ⟨0, 0xCAFEBABE⟩ := by decide
theorem test_shrz_edges :
    reg 1 (.shrz 1 0 63) (two ⟨0x80000000, 0⟩ ⟨0, 0⟩) = some ⟨0, 1⟩ ∧
    reg 1 (.shrz 1 0 0) (two ⟨0x80000000, 5⟩ ⟨0, 0⟩) = some ⟨0x80000000, 5⟩ ∧
    reg 1 (.shrz 1 0 255) (two ⟨0x80000000, 5⟩ ⟨0, 0⟩) = some ⟨0, 0⟩ := by decide
theorem test_rotl : reg 1 (.rotl 1 0 36) (two ⟨0x01234567, 0x89ABCDEF⟩ ⟨0, 0⟩) =
    some ⟨0x9ABCDEF0, 0x12345678⟩ := by decide
theorem test_rotl_modulo : reg 1 (.rotl 1 0 68) (two ⟨0x01234567, 0x89ABCDEF⟩ ⟨0, 0⟩) =
    some ⟨0x12345678, 0x9ABCDEF0⟩ := by decide
theorem test_rotr : reg 1 (.rotr 1 0 4) (two ⟨0x01234567, 0x89ABCDEF⟩ ⟨0, 0⟩) =
    some ⟨0xF0123456, 0x789ABCDE⟩ := by decide
theorem test_rotr_swap : reg 1 (.rotr 1 0 96) (two ⟨0x01234567, 0x89ABCDEF⟩ ⟨0, 0⟩) =
    some ⟨0x89ABCDEF, 0x01234567⟩ := by decide
theorem test_add_carry : reg 2 (.add 2 0 1) (two ⟨0x7FFFFFFF, 0xFFFFFFFF⟩ ⟨0, 1⟩) =
    some ⟨0x80000000, 0⟩ := by decide
theorem test_add_wraps : reg 0 (.add 0 0 0) (two ⟨0xFFFFFFFF, 0xFFFFFFFF⟩ ⟨0, 0⟩) =
    some ⟨0xFFFFFFFF, 0xFFFFFFFE⟩ := by decide
theorem test_sub_borrow : reg 2 (.sub 2 0 1) (two ⟨1, 0⟩ ⟨0, 1⟩) = some ⟨0, 0xFFFFFFFF⟩ := by decide
theorem test_sub_wraps : reg 1 (.sub 1 0 1) (two ⟨0, 0⟩ ⟨0, 1⟩) = some ⟨0xFFFFFFFF, 0xFFFFFFFF⟩ := by decide
theorem test_ucmp :
    (after (.ucmp 0 1) (two ⟨1, 0⟩ ⟨0, 0xFFFFFFFF⟩)).map (·.ord) = some 2 ∧
    (after (.ucmp 0 1) (two ⟨0, 1⟩ ⟨0, 2⟩)).map (·.ord) = some 1 := by decide
theorem test_scmp :
    (after (.scmp 0 1) (two ⟨0x80000000, 0⟩ ⟨0x7FFFFFFF, 0xFFFFFFFF⟩)).map (·.ord) = some 1 ∧
    (after (.scmp 0 1) (two ⟨0xFFFFFFFF, 0xFFFFFFFF⟩ ⟨0xFFFFFFFF, 0xFFFFFFFE⟩)).map (·.ord) = some 2 := by decide
/-- `"18446744073709551615"`. -/
theorem test_ustr_longest : output (.ustr 0) (two ⟨0xFFFFFFFF, 0xFFFFFFFF⟩ ⟨0, 0⟩) =
    some [0x31, 0x38, 0x34, 0x34, 0x36, 0x37, 0x34, 0x34, 0x30, 0x37, 0x33, 0x37, 0x30, 0x39, 0x35, 0x35, 0x31,
      0x36, 0x31, 0x35] := by decide
theorem test_ustr_short :
    output (.ustr 0) (two ⟨0, 0⟩ ⟨0, 0⟩) = some [0x30] ∧ output (.ustr 0) (two ⟨0, 10⟩ ⟨0, 0⟩) = some [0x31, 0x30] := by
  decide
theorem test_sstr : output (.sstr 0) (two ⟨0xFFFFFFFF, 0xFFFFFFE0⟩ ⟨0, 0⟩) = some [0x2D, 0x33, 0x32] := by decide
/-- `"-9223372036854775808"`. -/
theorem test_sstr_most_negative : output (.sstr 0) (two ⟨0x80000000, 0⟩ ⟨0, 0⟩) =
    some [0x2D, 0x39, 0x32, 0x32, 0x33, 0x33, 0x37, 0x32, 0x30, 0x33, 0x36, 0x38, 0x35, 0x34, 0x37, 0x37, 0x35,
      0x38, 0x30, 0x38] := by decide
theorem test_hex : output (.hex 0) (two ⟨0xDEADBEEF, 0xBAAAAA87⟩ ⟨0, 0⟩) =
    some [0x64, 0x65, 0x61, 0x64, 0x62, 0x65, 0x65, 0x66, 0x62, 0x61, 0x61, 0x61, 0x61, 0x61, 0x38, 0x37] := by
  decide
theorem test_bstr : output (.bstr 0) (two ⟨0x80000000, 1⟩ ⟨0, 0⟩) =
    some (0x31 :: List.replicate 62 0x30 ++ [0x31]) := by decide
theorem test_bits : output (.bits 0) (two ⟨0x80000000, 1⟩ ⟨0, 0⟩) =
    some (0x01 :: List.replicate 62 0x00 ++ [0x01]) := by decide
theorem test_bytes : output (.bytes 0) (two ⟨0xDEADBEEF, 0xBAAAAAAD⟩ ⟨0, 0⟩) =
    some [0xDE, 0xAD, 0xBE, 0xEF, 0xBA, 0xAA, 0xAA, 0xAD] := by decide
/-- R194's example: `ENC.LE v0` at 0. -/
theorem test_enc_little_endian :
    (after (.enc 0 .le) (two ⟨0x01020304, 0x05060708⟩ ⟨0, 0⟩)).map (fun t => (t.memRead 0 8, t.cur, t.len)) =
      some (some [8, 7, 6, 5, 4, 3, 2, 1], 8, 8) := by decide
theorem test_enc_overrun :
    (after (.enc 0 .be) ((two ⟨1, 2⟩ ⟨0, 0⟩).setCur 249)).map
        (fun t => (t.status, t.finfo, t.cur, t.len, t.buf.length)) =
      some (5, 0x71000000, 249, 0, 0) := by decide

/-- `BUF[0..7] = 08 07 06 05 04 03 02 01`, `LEN = 8`. -/
def loaded : State := { State.reset with
  buf := [(0, 8), (1, 7), (2, 6), (3, 5), (4, 4), (5, 3), (6, 2), (7, 1)]
  len := 8 }

theorem test_dec :
    reg 1 (.dec 1 .le) loaded = some ⟨0x01020304, 0x05060708⟩ ∧
    reg 1 (.dec 1 .be) loaded = some ⟨0x08070605, 0x04030201⟩ := by decide
theorem test_dec_failure :
    (after (.dec 1 .le) (loaded.setCur 1)).map (fun t => (t.status, t.cur, t.readReg 1)) =
      some (0x10, 1, ⟨0, 0⟩) := by decide
theorem test_seek : (after (.seek 0xFFFF) .reset).map (fun t => (t.cur, t.len)) = some (0xFFFF, 0) := by decide
theorem test_setlen : (after (.setlen 256) .reset).map (fun t => (t.len, t.status)) = some (256, 0) := by decide
theorem test_setlen_bad : (after (.setlen 257) .reset).map (fun t => (t.len, t.status, t.finfo)) =
    some (0, 7, 0x74000101) := by decide

/-- The first step after a word is put at the head of the stream. -/
theorem test_step_runs_fetched_word :
    step (State.reset.withFetchWord 32 0x73000005) = .next (State.reset.setCur 5) := rfl
theorem test_step_illegal_word :
    step { State.reset with stream := [0, 0x73000005] } =
      .next { State.reset with status := 3, finfo := 0, stream := [0x73000005] } := rfl
theorem test_step_stops :
    step State.reset = .fault .streamEmpty ∧
    step { State.reset with stream := [0x10000000, 1] } = .fault .streamTruncated ∧
    step { State.reset with status := 3, stream := [0x73000005] } = .fault .halted := ⟨rfl, rfl, rfl⟩

/-! ## Witnesses: what meets the hypotheses of the obligations -/

theorem witness_DecodeOfEncodeIsTheCommand :
    WellFormed (.shl 15 15 255) = true ∧ WellFormed (.shl 0 0 0) = true ∧
      WellFormed (.fromint 15 true (2 ^ 63 - 1)) = true ∧ WellFormed (.setlen 0xFFFF) = true := by decide

theorem witness_EncodeOfDecodeIsTheWords :
    decode [0x11F00000, 0xFFFFFFFF, 0xFFFFFFFF, 0] = .command (.fromint 15 true (2 ^ 63 - 1)) [0] := by decide

theorem witness_AssemblerAssignsTheFields :
    ((2 : Int) ^ 63 - 1).natAbs ≤ 2 ^ 63 - 1 ∧ (-((2 : Int) ^ 63 - 1)).natAbs ≤ 2 ^ 63 - 1 ∧
      (0 : Int).natAbs ≤ 2 ^ 63 - 1 := by decide

theorem witness_IllegalExactlyWhereNoRowMatches : LegalWord 0x710F0001 ∧ ¬ LegalWord 0x710F0002 := by
  unfold LegalWord
  decide

theorem witness_OpcodeTellsTheLength :
    ¬ LegalWord 0x10000001 ∧ (LiteralHead 0x10F00000 ∧ LiteralHead 0x11000000) ∧
      (LegalWord 0x74FFFF00 → False) ∧ (LegalWord 0x7400FFFF ∧ ¬ LiteralHead 0x7400FFFF) ∧
      ([0xFFFFFFFF] : List Word).length < 2 ∧
      ({ State.reset with stream := [0x10F00000, 0xFFFFFFFF] } : State).halted = false := by
  unfold LegalWord LiteralHead
  decide

/-- A running block with one command, one illegal word and one incomplete command at the head of its stream. -/
def running (stream : List Word) : State := { State.reset with stream := stream }

theorem witness_StepRunsTheDecodedCommand :
    (running [0x73000005, 0]).halted = false ∧
      decode (running [0x73000005, 0]).stream = .command (.seek 5) [0] := by decide

theorem witness_StepRemovesOneOrThreeWords :
    step (running [0x73000005, 0]) = .next ((running [0]).setCur 5) ∧
      step (running [0x10100000, 1, 2, 0]) = .next ((running [0]).writeReg 1 ⟨1, 2⟩) := ⟨rfl, rfl⟩

theorem witness_IllegalWordRaisesIllegalCommand :
    (running [0x40201001, 7]).halted = false ∧ (running [0x40201001, 7]).stream = [0x40201001, 7] ∧
      ¬ LegalWord 0x40201001 := by
  unfold LegalWord
  decide

/-- A halted block with a command pushed. -/
def haltedState : State := { State.reset with status := 3, finfo := 0x40201001, stream := [0x73000005] }

theorem witness_HaltedBlockPerformsNoStep : statusFault haltedState.status = true := by decide

/-- A command that completes in a state with `FAULT = 1`, and the two that write a fault of their own. -/
theorem witness_OnlyResetClearsAFault :
    (exec (.seek 5) haltedState = .next (haltedState.setCur 5) ∧ statusFault haltedState.status = true) ∧
      exec (.enc 0 .be) (State.reset.setCur 249) =
        .next ((State.reset.setCur 249).raiseFault .encodeOverrun 0x71000000) ∧
      exec (.setlen 257) State.reset = .next (State.reset.raiseFault .badLength 0x74000101) :=
  ⟨⟨rfl, by decide⟩, rfl, rfl⟩

/-- A state that differs from reset in its stream, `BUF`, `LEN` and `STATUS` only meets the invariant when these
do. -/
theorem inv_of (stream : List Word) (buf : Memory) (len : BitVec 16) (cur : BitVec 16)
    (hlen : len.toNat ≤ 256) (hwf : Memory.wf buf) (hin : ∀ c ∈ buf, c.1 < 256) :
    ({ State.reset with stream := stream, buf := buf, len := len, cur := cur } : State).Inv where
  cfg_wf := (by decide : State.reset.cfg.wf)
  len_le := hlen
  buf_wf := hwf
  buf_inside := hin
  ord_code := .inl rfl
  outlen_le := (by decide : State.reset.outlen.toNat ≤ 64)
  out_tail := (by decide : ∀ i : Fin 64, State.reset.outlen.toNat ≤ i.val → State.reset.hostOut i = 0)
  status_reserved := (by decide : statusReserved State.reset.status = 0)
  no_fault := fun _ => (by decide : statusCause State.reset.status = 0 ∧ State.reset.finfo = 0)
  fault_cause := fun h => absurd h (by decide : ¬ State.reset.halted = true)

theorem reset_inv : State.reset.Inv := inv_of [] [] 0 0 (by decide) (by decide) (by decide)

/-- The three ends of a run. -/
theorem witness_EveryRunEndsInOneOfThreeWays :
    (running []).Inv ∧ (running [0x73000005]).Inv ∧ (running [0]).Inv ∧ (running [0x10000000, 1]).Inv ∧
      (running [0x73000005]).runToEnd.runEnd = some .final ∧ (running [0]).runToEnd.runEnd = some .faulted ∧
      (running [0x10000000, 1]).runToEnd.runEnd = some .stuck :=
  ⟨inv_of _ [] 0 0 (by decide) (by decide) (by decide), inv_of _ [] 0 0 (by decide) (by decide) (by decide),
    inv_of _ [] 0 0 (by decide) (by decide) (by decide), inv_of _ [] 0 0 (by decide) (by decide) (by decide),
    by decide, by decide, by decide⟩

theorem witness_ResetInputEstablishesTheResetValues :
    decode [0x73000005, 0] = .command (.seek 5) [0] ∧
      step (haltedState.hostReset.hostPush [0x73000005, 0]) =
        .next ((running [0]).setCur 5) := ⟨by decide, rfl⟩

theorem witness_BufferLoadOnlyWhileIdle :
    (State.reset.stream = [] ∧ State.reset.halted = false ∧ 255 < State.reset.cfg.bufSize) ∧
      (running [0]).stream ≠ [] ∧ haltedState.halted = true ∧ State.reset.cfg.bufSize ≤ 256 := by decide

theorem witness_InvariantHoldsAtResetAndAtThePorts :
    (⟨8⟩ : Config).wf ∧ (⟨65535⟩ : Config).wf ∧ Memory.wf [(0, 1), (7, 255)] ∧
      (∀ c ∈ ([(0, 1), (7, 255)] : Memory), c.1 < (⟨8⟩ : Config).bufSize) ∧ State.reset.Inv ∧
      State.reset.hostLoad 255 1 = some { State.reset with buf := [(255, 1)] } :=
  ⟨by decide, by decide, by decide, by decide, reset_inv, by decide⟩

theorem witness_EveryStepKeepsTheInvariant :
    (running [0x73000005]).Inv ∧ step (running [0x73000005]) = .next ((running []).setCur 5) :=
  ⟨inv_of _ [] 0 0 (by decide) (by decide) (by decide), rfl⟩

/-- `exec` answers a next state for a command of each column of the table, and `ADD` is none of those a clause
leaves out. -/
theorem witness_CommandsWriteOnlyWhatTheTableShows :
    exec (.add 2 0 1) State.reset = .next (State.reset.writeReg 2 ⟨0, 0⟩) ∧
      destination (.add 2 0 1) ≠ some 3 ∧ ¬ isCompare (.add 2 0 1) ∧ ¬ isDec (.add 2 0 1) ∧
      ¬ isEnc (.add 2 0 1) ∧ ¬ isSeek (.add 2 0 1) ∧ ¬ isSetlen (.add 2 0 1) ∧ ¬ isRender (.add 2 0 1) ∧
      (exec (.enc 0 .be) State.reset = .next ((State.reset.setCur 8).setLen 8) ∧ isEnc (.enc 0 .be)) := by
  refine ⟨rfl, by decide, ?_, ?_, ?_, ?_, ?_, ?_, rfl, ⟨0, .be, rfl⟩⟩
  · rintro ⟨ra, rb, h | h⟩ <;> cases h
  · rintro ⟨rd, order, h⟩
    cases h
  · rintro ⟨ra, order, h⟩
    cases h
  · rintro ⟨imm, h⟩
    cases h
  · rintro ⟨imm, h⟩
    cases h
  · rintro ⟨ra, h | h | h | h | h | h⟩ <;> cases h

/-- Counts at and past the limb width; a difference below and at zero. -/
theorem witness_limb_primitives :
    32 ≤ 32 ∧ shl32 0xFFFFFFFF 32 = 0 ∧ shr32 0xFFFFFFFF 32 = 0 ∧ shl32 0xFFFFFFFF 31 = 0x80000000 ∧
      ((0 : Limb).toNat : Int) - (0 : Limb).toNat - true.toNat < 0 ∧
      0 ≤ ((1 : Limb).toNat : Int) - (0 : Limb).toNat - true.toNat := by decide

theorem witness_OutputAssignmentReplacesTheBuffer :
    (List.replicate 64 (0xFF : Byte)).length ≤ 64 ∧ ([] : List Byte).length ≤ 64 := by decide

theorem witness_MemoryPrimitivesReadAndWriteBytes :
    252 + ([1, 2, 3, 4] : List Byte).length ≤ State.reset.cfg.bufSize := by decide

theorem witness_FieldPrimitivesFollowTheByteOrder : 252 + 4 ≤ State.reset.cfg.bufSize := by decide

theorem witness_FromintInTheSafeRange :
    2 ^ 53 - 1 ≤ 2 ^ 53 - 1 ∧ reg 0 (.fromint 0 false (2 ^ 53 - 1)) .reset = some ⟨0x001FFFFF, 0xFFFFFFFF⟩ ∧
      reg 0 (.fromint 0 true 1) .reset = some ⟨0xFFFFFFFF, 0xFFFFFFFF⟩ := by decide

theorem witness_FromintIsTheIntegerModulo : Safe (2 ^ 53 - 1) ∧ Safe (-(2 ^ 53 - 1)) ∧ Safe 0 := by
  unfold Safe
  decide

theorem witness_FromintOutsideTheSafeRangeCompletes :
    2 ^ 53 - 1 < 2 ^ 53 ∧ exec (.fromint 3 true (2 ^ 53)) .reset =
      .next ((State.reset.writeReg 3 (Config.freeValue 0)).drawn) := ⟨by decide, rfl⟩

/-- 2^53 - 1 and -1: the sum and the difference of both signs, and a pair of non-negative integers. -/
theorem witness_ConstructionLaws :
    let s := two ⟨0x001FFFFF, 0xFFFFFFFE⟩ ⟨0, 1⟩
    let u := two ⟨0, 0⟩ ⟨0xFFFFFFFF, 0xFFFFFFFF⟩
    (Safe (2 ^ 53 - 2) ∧ Safe 1 ∧ HoldsInt s 0 (2 ^ 53 - 2) ∧ HoldsInt s 1 1 ∧ Safe (2 ^ 53 - 2 + 1) ∧
      Safe (2 ^ 53 - 2 - 1) ∧ (0 : Int) ≤ 2 ^ 53 - 2 ∧ (0 : Int) ≤ 1) ∧
    (Safe 0 ∧ Safe (-1) ∧ HoldsInt u 0 0 ∧ HoldsInt u 1 (-1) ∧ Safe (0 + -1) ∧ Safe (0 - -1)) := by
  unfold Safe HoldsInt
  decide

/-- A sum outside the safe range. -/
theorem witness_SumOfConstructedIntegersIsModular :
    let s := two ⟨0x001FFFFF, 0xFFFFFFFF⟩ ⟨0x001FFFFF, 0xFFFFFFFF⟩
    Safe (2 ^ 53 - 1) ∧ HoldsInt s 0 (2 ^ 53 - 1) ∧ HoldsInt s 1 (2 ^ 53 - 1) ∧
      ¬ Safe (2 ^ 53 - 1 + (2 ^ 53 - 1)) := by
  unfold Safe HoldsInt
  decide

/-- The loop stops at 9 and goes on at 10. -/
theorem witness_DigitLoopAndNegation :
    (⟨0, 9⟩ : Value).u64 < 10 ∧ 10 ≤ (⟨0, 10⟩ : Value).u64 ∧ 19 ≤ 19 ∧
      ustrLoop 1 0 9 [] = [0x39] ∧ ustrLoop 2 0 10 [] = [0x31, 0x30] ∧
      ustrLoop 19 0xFFFFFFFF 0xFFFFFFFF [] = ustrOf ⟨0xFFFFFFFF, 0xFFFFFFFF⟩ := by decide

theorem witness_ShiftsAndRotatesAsIntegers : (0 < 1 ∧ 1 < 64) ∧ (0 < 63 ∧ 63 < 64) := by decide

theorem witness_ScmpTestsTheSignsFirst :
    let s := two ⟨0, 0⟩ ⟨0x80000000, 0⟩
    ((s.readReg 0).high &&& 0x80000000 = 0 ∧ (s.readReg 1).high &&& 0x80000000 ≠ 0) ∧
      ((s.readReg 1).high &&& 0x80000000 ≠ 0 ∧ (s.readReg 2).high &&& 0x80000000 = 0) ∧
      (s.readReg 0).high &&& 0x80000000 = (s.readReg 2).high &&& 0x80000000 := by decide

theorem witness_OrderingsAreTotalOrders :
    (ucmp = ucmp ∨ ucmp = scmp) ∧ ucmp ⟨0, 1⟩ ⟨0, 2⟩ = 1 ∧ ucmp ⟨0, 2⟩ ⟨0x80000000, 0⟩ = 1 ∧
      ucmp ⟨1, 1⟩ ⟨1, 1⟩ = 0 ∧ scmp ⟨0x80000000, 0⟩ ⟨0xFFFFFFFF, 0xFFFFFFFF⟩ = 1 ∧
      scmp ⟨0xFFFFFFFF, 0xFFFFFFFF⟩ ⟨0, 0⟩ = 1 :=
  ⟨.inl rfl, by decide⟩

/-- The last cursor that fits, and the first and the last that do not. -/
theorem witness_EncStoresTheFieldOrRaisesOverrun :
    State.reset.cfg.wf ∧ (State.reset.setCur 248).cur.toNat + 8 ≤ (State.reset.setCur 248).cfg.bufSize ∧
      (State.reset.setCur 249).cfg.bufSize < (State.reset.setCur 249).cur.toNat + 8 ∧
      (State.reset.setCur 0xFFFF).cfg.bufSize < (State.reset.setCur 0xFFFF).cur.toNat + 8 := by decide

theorem witness_EncodeDecodeRoundTrip :
    loaded.cfg.wf ∧ loaded.cur.toNat + 8 ≤ loaded.cfg.bufSize := by decide

theorem witness_MixedOrderReversesTheBytes :
    ByteOrder.be ≠ ByteOrder.le ∧ loaded.cfg.wf ∧ loaded.cur.toNat + 8 ≤ loaded.cfg.bufSize := by decide

/-- `A = LEN - 8` succeeds, `A = LEN - 7` fails. -/
theorem witness_DecReadsTheFieldOrReportsFailure :
    loaded.len.toNat ≤ loaded.cfg.bufSize ∧ loaded.cur.toNat + 8 ≤ loaded.len.toNat ∧
      (loaded.setCur 1).len.toNat < (loaded.setCur 1).cur.toNat + 8 := by decide

theorem witness_SetlenSetsTheLengthOrFaults :
    (256 : BitVec 16).toNat ≤ State.reset.cfg.bufSize ∧ State.reset.cfg.bufSize < (257 : BitVec 16).toNat := by
  decide

end Sys2Proof.Tests
end

section
/-!
PROOFS. The statements of the family 00_scope.md: what a command does to the state, said once for all 24 commands
(`exec_effect`); from it the invariant along every step, and the end of every run.
-/

namespace Sys2Proof.Machine

open Sys2Proof.Claims

/-! ## What a command does -/

/-- The effects a command can have on the state, each with the commands that have it and the condition it stands
under (10_state.md R35). -/
inductive Effect (i : Instr) (s : State) : State → Prop where
  /-- `v[rd]` and nothing else -/
  | writes {rd : Reg} (hd : destination i = some rd) (v : Value) : Effect i s (s.writeReg rd v)
  /-- `v[rd]` takes the next free value (40_construction.md R113) -/
  | draws {rd : Reg} (hd : destination i = some rd) : Effect i s (s.writeReg rd s.freeValue).drawn
  /-- `ORD` (44_comparison.md R161, R163) -/
  | orders (hi : isCompare i) {o : BitVec 2} (ho : o = ordEQ ∨ o = ordLT ∨ o = ordGT) : Effect i s (s.setOrd o)
  /-- `OUT` and `OUTLEN` (10_state.md R30) -/
  | renders (hi : isRender i) {bytes : List Byte} (hb : bytes.length ≤ 64) : Effect i s (s.setOut bytes)
  /-- `ENC` past the end of `BUF` (60_exceptions.md R213) -/
  | overruns (hi : isEnc i) (hfit : s.cfg.bufSize < s.cur.toNat + 8) :
    Effect i s (s.raiseFault .encodeOverrun (commandWord i))
  /-- `ENC` of 8 bytes inside `BUF` (46_byte_serialization.md R194) -/
  | stores (hi : isEnc i) {bytes : List Byte} (hb : bytes.length = 8) (hfit : s.cur.toNat + 8 ≤ s.cfg.bufSize) :
    Effect i s ({ s with buf := Memory.writeList s.buf s.cur.toNat bytes }.afterEncode s.cur.toNat)
  /-- `DEC` with fewer than 8 bytes remaining (46_byte_serialization.md R196) -/
  | fallsShort (hi : isDec i) (hfit : s.len.toNat < s.cur.toNat + 8) : Effect i s (s.setDF true)
  /-- `DEC` of 8 bytes below `LEN` (46_byte_serialization.md R196) -/
  | reads (hi : isDec i) {rd : Reg} (hd : destination i = some rd) (hfit : s.cur.toNat + 8 ≤ s.len.toNat)
      (v : Value) :
    Effect i s (((s.writeReg rd v).setCur (BitVec.ofNat 16 (s.cur.toNat + 8))).setDF false)
  /-- `CUR` (46_byte_serialization.md R197) -/
  | seeks (hi : isSeek i) (a : BitVec 16) : Effect i s (s.setCur a)
  /-- `SETLEN` above `BUFSIZE` (60_exceptions.md R214) -/
  | badLength (hi : isSetlen i) : Effect i s (s.raiseFault .badLength (commandWord i))
  /-- `LEN`, up to `BUFSIZE` (46_byte_serialization.md R198) -/
  | setsLength (hi : isSetlen i) {n : BitVec 16} (hn : n.toNat ≤ s.cfg.bufSize) : Effect i s (s.setLen n)

theorem execFromint_effect {rd : Reg} {sign : Bool} {mag : Nat} {s t : State}
    (h : execFromint rd sign mag s = .next t) : Effect (.fromint rd sign mag) s t := by
  by_cases hm : mag ≤ safeMagnitude
  · rw [execFromint_safe s hm] at h
    cases h
    exact .writes rfl _
  · rw [execFromint_free s hm] at h
    cases h
    exact .draws rfl

theorem execEnc_effect {ra : Reg} {order : ByteOrder} {s t : State} (h : execEnc ra order s = .next t) :
    Effect (.enc ra order) s t := by
  by_cases hfit : s.cfg.bufSize < s.cur.toNat + 8
  · rw [execEnc_overrun hfit] at h
    cases h
    exact .overruns ⟨ra, order, rfl⟩ hfit
  · have hfit : s.cur.toNat + 8 ≤ s.cfg.bufSize := Nat.le_of_not_lt hfit
    rw [execEnc_stores hfit] at h
    cases h
    exact .stores ⟨ra, order, rfl⟩ (valueBytes_length ..) hfit

theorem execDec_effect {rd : Reg} {order : ByteOrder} {s t : State} (h : execDec rd order s = .next t) :
    Effect (.dec rd order) s t := by
  by_cases hfit : s.len.toNat < s.cur.toNat + 8
  · rw [execDec_short hfit] at h
    cases h
    exact .fallsShort ⟨rd, order, rfl⟩ hfit
  · simp only [execDec, if_neg hfit] at h
    split at h
    · cases h
      exact .reads ⟨rd, order, rfl⟩ rfl (Nat.le_of_not_lt hfit) _
    · cases h

theorem execSetlen_effect {imm : BitVec 16} {s t : State} (h : execSetlen imm s = .next t) :
    Effect (.setlen imm) s t := by
  by_cases hn : s.cfg.bufSize < imm.toNat
  · rw [execSetlen_bad hn] at h
    cases h
    exact .badLength ⟨imm, rfl⟩
  · have hn : imm.toNat ≤ s.cfg.bufSize := Nat.le_of_not_lt hn
    rw [execSetlen_sets hn] at h
    cases h
    exact .setsLength ⟨imm, rfl⟩ hn

/-- A command that answers a next state has one of the effects, in every state. -/
theorem exec_effect {i : Instr} {s t : State} (h : exec i s = .next t) : Effect i s t := by
  cases i
  case fromint => exact execFromint_effect h
  case enc => exact execEnc_effect h
  case dec => exact execDec_effect h
  case setlen => exact execSetlen_effect h
  all_goals cases h
  case ucmp ra rb => exact .orders ⟨ra, rb, .inl rfl⟩ (ucmp_code ..)
  case scmp ra rb => exact .orders ⟨ra, rb, .inr rfl⟩ (scmp_code ..)
  case ustr ra => exact .renders ⟨ra, by simp⟩ (Nat.le_trans (ustrOf_length_le _) (by decide))
  case sstr ra => exact .renders ⟨ra, by simp⟩ (Nat.le_trans (sstrOf_length_le _) (by decide))
  case hex ra => exact .renders ⟨ra, by simp⟩ (by rw [hexOf_length]; decide)
  case bstr ra => exact .renders ⟨ra, by simp⟩ (bstrOf_length _).le
  case bits ra => exact .renders ⟨ra, by simp⟩ (bitsOf_length _).le
  case bytes ra => exact .renders ⟨ra, by simp⟩ (by rw [bytesOf_eq, valueBytes_length]; decide)
  case seek imm => exact .seeks ⟨imm, rfl⟩ imm
  all_goals exact .writes rfl _

/-- No command touches the stream: a step takes its words off before it performs the command. -/
theorem Effect.stream {i : Instr} {s t : State} (h : Effect i s t) : t.stream = s.stream := by
  cases h with
  | stores =>
    obtain ⟨-, -, -, -, -, -, -, hstream, -⟩ := afterEncode_rest
      { s with buf := Memory.writeList s.buf s.cur.toNat _ } s.cur.toNat
    exact hstream
  | _ => rfl

/-! ## The invariant -/

/-- Every effect keeps the invariant: each is made of named operations that do. -/
theorem Effect.inv {i : Instr} {s t : State} (h : Effect i s t) (hs : s.Inv) : t.Inv := by
  cases h with
  | writes _ v => exact hs.writeReg _ v
  | draws => exact (hs.writeReg _ _).drawn
  | orders _ ho => exact hs.setOrd ho
  | renders _ hb => exact hs.setOut hb
  | overruns => exact hs.raiseFault _ _
  | stores _ hb hfit => exact (hs.writeList (hb ▸ hfit)).afterEncode hfit
  | fallsShort => exact hs.setDF true
  | reads _ _ _ v => exact ((hs.writeReg _ v).setCur _).setDF false
  | seeks _ a => exact hs.setCur a
  | badLength => exact hs.raiseFault _ _
  | setsLength _ hn => exact hs.setLen hn

theorem State.Inv.takeIllegal {s : State} (hs : s.Inv) (w : Word) (rest : List Word) : (s.takeIllegal w rest).Inv :=
  (hs.consume rest).raiseFault .illegalCommand w

theorem step_inv {s t : State} (hs : s.Inv) (h : step s = .next t) : t.Inv := by
  obtain ⟨-, ⟨i, rest, -, hexec⟩ | ⟨why, w, rest, -, rfl⟩⟩ := step_cases h
  · exact (exec_effect hexec).inv (hs.consume rest)
  · exact hs.takeIllegal w rest

/-! ## The end of a run (00_scope.md R8) -/

/-- Every step takes at least one word off the stream. -/
theorem step_stream_lt {s t : State} (h : step s = .next t) : t.stream.length < s.stream.length := by
  have htakes := decode_takes s.stream
  obtain ⟨-, ⟨i, rest, hd, hexec⟩ | ⟨why, w, rest, hd, rfl⟩⟩ := step_cases h
  · rw [hd] at htakes
    rw [(exec_effect hexec).stream, State.consume_stream]
    obtain ⟨w, hw⟩ | ⟨w, word1, word2, hw⟩ := htakes
    · simp [hw]
    · simp [hw]; omega
  · rw [hd] at htakes
    have hw : s.stream = w :: rest := htakes
    simp [hw, State.takeIllegal]

theorem runEnd_halted {s : State} (h : s.halted = true) : s.runEnd = some .faulted := if_pos h

section Running

variable {s : State} (hh : s.halted = false)
include hh

theorem runEnd_command {i : Instr} {rest : List Word} (hd : decode s.stream = .command i rest) : s.runEnd = none := by
  rw [State.runEnd, if_neg (by simp [hh]), State.fetch, hd]

theorem runEnd_illegal {why : IllegalReason} {w : Word} {rest : List Word}
    (hd : decode s.stream = .illegal why w rest) : s.runEnd = none := by
  rw [State.runEnd, if_neg (by simp [hh]), State.fetch, hd]

theorem runEnd_truncated (hd : decode s.stream = .truncated) : s.runEnd = some .stuck := by
  rw [State.runEnd, if_neg (by simp [hh]), State.fetch, hd]

theorem runEnd_noWord (hd : decode s.stream = .noWord) : s.runEnd = some .final := by
  rw [State.runEnd, if_neg (by simp [hh]), State.fetch, hd]

end Running

theorem runEnd_of_step {s t : State} (h : step s = .next t) : s.runEnd = none := by
  obtain ⟨hh, ⟨i, rest, hd, -⟩ | ⟨why, w, rest, hd, -⟩⟩ := step_cases h
  · exact runEnd_command hh hd
  · exact runEnd_illegal hh hd

/-- A run that has not ended has a next step. -/
theorem exists_step_of_runEnd_none {s : State} (hs : s.Inv) (h : s.runEnd = none) : ∃ t, step s = .next t := by
  cases hh : s.halted with
  | true => simp [runEnd_halted hh] at h
  | false =>
    cases hd : decode s.stream with
    | command i rest =>
      rw [step_command hh hd]
      exact exec_total i (s := s.consume rest) hs.len_le
    | illegal why w rest => exact ⟨_, step_illegal hh hd⟩
    | truncated => simp [runEnd_truncated hh hd] at h
    | noWord => simp [runEnd_noWord hh hd] at h

/-- A run that has ended stays where it is. -/
theorem runFor_of_runEnd {s : State} {e : RunEnd} (h : s.runEnd = some e) (k : Nat) : runFor k s = s := by
  cases k with
  | zero => rfl
  | succ k =>
    cases hstep : step s with
    | next t => simp [runEnd_of_step hstep] at h
    | fault r => rw [runFor, hstep]
    | refused r => rw [runFor, hstep]

theorem runEnd_ne_none_of_stream_nil {s : State} (h : s.stream = []) : s.runEnd ≠ none := by
  cases hh : s.halted with
  | true => simp [runEnd_halted hh]
  | false => simp [runEnd_noWord hh (show decode s.stream = .noWord by rw [h]; rfl)]

/-- A run of at least as many steps as the stream has words has ended. -/
theorem runFor_ended {k : Nat} {s : State} (hs : s.Inv) (hk : s.stream.length ≤ k) :
    (runFor k s).runEnd ≠ none := by
  induction k generalizing s with
  | zero => exact runEnd_ne_none_of_stream_nil (List.length_eq_zero_iff.mp (Nat.le_zero.mp hk))
  | succ k ih =>
    cases he : s.runEnd with
    | none =>
      obtain ⟨t, hstep⟩ := exists_step_of_runEnd_none hs he
      have hlt := step_stream_lt hstep
      rw [runFor, hstep]
      exact ih (step_inv hs hstep) (by omega)
    | some e => simp [runFor_of_runEnd he, he]

/-! ### A stuck run stands at a literal head -/

theorem literalHead_iff (w : Word) :
    LiteralHead w ↔ (bitField w 31 24 = 0x10 ∨ bitField w 31 24 = 0x11) ∧ Format.lit.clear w = true := by
  rw [LiteralHead, row_iff (f := .lit) (op := 0x10) w (by decide) (by decide) (by decide) (by decide),
    row_iff (f := .lit) (op := 0x11) w (by decide) (by decide) (by decide) (by decide), or_and_right]

theorem oneWord_ne_truncated (i : Instr) (w : Word) (rest : List Word) : oneWord i w rest ≠ .truncated := by
  unfold oneWord
  split <;> simp

theorem clear_of_threeWords_truncated {make : Word → Word → Instr} {w : Word} {rest : List Word}
    (h : threeWords make w rest = .truncated) : Format.lit.clear w = true := by
  by_contra hc
  simp [threeWords, hc] at h

/-- Only a legal `FROMLIMBS` or `FROMINT` word waits for more words. -/
theorem literalHead_of_decode_truncated {w : Word} {rest : List Word} (h : decode (w :: rest) = .truncated) :
    LiteralHead w := by
  rw [literalHead_iff]
  simp only [decode] at h
  split at h
  case h_1 hop => exact ⟨.inl hop, clear_of_threeWords_truncated h⟩
  case h_2 hop => exact ⟨.inr hop, clear_of_threeWords_truncated h⟩
  case h_25 => cases h
  all_goals exact absurd h (oneWord_ne_truncated _ _ _)

/-- What the end of a run says of the state it ends in. -/
theorem runEnd_cases {s : State} (h : s.runEnd ≠ none) :
    (s.runEnd = some .final ∧ s.stream = [] ∧ statusFault s.status = false) ∨
    (s.runEnd = some .faulted ∧ statusFault s.status = true) ∨
    (s.runEnd = some .stuck ∧ statusFault s.status = false ∧
      ∃ w words, s.stream = w :: words ∧ LiteralHead w ∧ words.length < 2) := by
  cases hh : s.halted with
  | true => exact .inr (.inl ⟨runEnd_halted hh, hh⟩)
  | false =>
    have htakes := decode_takes s.stream
    cases hd : decode s.stream with
    | command i rest => exact absurd (runEnd_command hh hd) h
    | illegal why w rest => exact absurd (runEnd_illegal hh hd) h
    | truncated =>
      rw [hd] at htakes
      obtain ⟨w, words, hw, hlen⟩ := htakes
      have hlit : LiteralHead w := literalHead_of_decode_truncated (rest := words) (hw ▸ hd)
      exact .inr (.inr ⟨runEnd_truncated hh hd, hh, w, words, hw, hlit, hlen⟩)
    | noWord =>
      rw [hd] at htakes
      exact .inl ⟨runEnd_noWord hh hd, htakes, hh⟩

/-! ## The buffer load (00_scope.md R7) -/

theorem idle_iff (s : State) : s.idle = true ↔ s.stream = [] ∧ s.halted = false := by
  simp [State.idle]

theorem hostLoad_idle {s : State} {addr : Nat} (hidle : s.idle = true) (ha : addr < s.cfg.bufSize) (b : Byte) :
    s.hostLoad addr b = some { s with buf := Memory.write s.buf addr b } := if_pos ⟨hidle, ha⟩

end Sys2Proof.Machine

namespace Sys2Proof.Proofs

open Sys2Proof.Machine Sys2Proof.Claims

/-- Settles O18: the effect of every command keeps the invariant, and so does the fault of an illegal word. -/
theorem everyStepKeepsTheInvariant : Obligations.EveryStepKeepsTheInvariant :=
  fun _ _ hs h => step_inv hs h

/-- Settles O13, by induction on the number of words: every step takes one, and a state without a next step has
ended in one of the three ways. -/
theorem everyRunEndsInOneOfThreeWays : Obligations.EveryRunEndsInOneOfThreeWays :=
  fun _ hs => runEnd_cases (runFor_ended hs le_rfl)

/-- Settles O7. -/
theorem stepRunsTheDecodedCommand : Obligations.StepRunsTheDecodedCommand :=
  fun _ _ _ hh hd => step_command hh hd

/-- Settles O15, by the read law of a write. -/
theorem bufferLoadOnlyWhileIdle : Obligations.BufferLoadOnlyWhileIdle := by
  intro s addr b
  constructor
  · intro hstream hh ha
    refine ⟨_, hostLoad_idle ((idle_iff s).mpr ⟨hstream, hh⟩) ha b, Memory.read_write_same .., ?_, ?_⟩
    · intro x hx
      exact Memory.read_write_other (by omega)
    · exact ⟨⟨fun _ => rfl, rfl, ⟨rfl, fun _ => rfl⟩, rfl, rfl⟩, ⟨rfl, rfl⟩, ⟨rfl, rfl⟩, rfl⟩
  · intro hrefuse
    refine if_neg ?_
    rintro ⟨hidle, ha⟩
    obtain ⟨hstream, hh⟩ := (idle_iff s).mp hidle
    rcases hrefuse with h | h | h
    · exact h hstream
    · simp [hh] at h
    · omega

/-- Settles O20: the limb shifts are those of bit vectors. -/
theorem limbShiftsAreMathematical : Obligations.LimbShiftsAreMathematical := by
  intro x k
  refine ⟨shl32_toNat x k, shr32_toNat x k, fun hk => ⟨?_, ?_⟩, ?_, ?_⟩
  · exact (shl32_eq x k).trans (BitVec.shiftLeft_eq_zero hk)
  · exact (shr32_eq x k).trans (BitVec.ushiftRight_eq_zero hk)
  · rw [shl32_eq, BitVec.shiftLeft_zero]
  · rw [shr32_eq, BitVec.ushiftRight_zero]

/-- Settles O21: the exact difference lies in `[-2^32, 2^32)`, so its residue adds `2^32` where it is negative. -/
theorem limbAdderAndSubtractorAreExact : Obligations.LimbAdderAndSubtractorAreExact := by
  intro a b c
  obtain ⟨hsum, hcarry⟩ := addCarry_spec a b c
  obtain ⟨hdiff, hborrow⟩ := subBorrow_spec a b c
  have ha := a.isLt
  have hb := b.isLt
  have hc := c.toNat_le
  refine ⟨hsum, hcarry, fun hneg => ⟨by omega, ?_⟩, fun hpos => ⟨by omega, ?_⟩⟩
  · rw [if_pos hneg] at hborrow
    exact Bool.toNat_eq_one.mp (by exact_mod_cast hborrow)
  · rw [if_neg (by omega)] at hborrow
    exact Bool.toNat_eq_zero.mp (by exact_mod_cast hborrow)

end Sys2Proof.Proofs
end

section
/-!
PROOFS. The statements of the family 10_state.md: what a command leaves unchanged, one lemma for each column of the
read/write table (R35); the words a step takes; the register file, the output buffer and the readout.
-/

namespace Sys2Proof.Machine

open Sys2Proof.Claims

/-! ## The columns of the read/write table (10_state.md R35) -/

/-- `ENC` ends with a write of `CUR` and of `LEN`, if only of the value `LEN` had. -/
theorem afterEncode_eq (s : State) (a : Nat) :
    s.afterEncode a = (s.setCur (BitVec.ofNat 16 (a + 8))).setLen (s.afterEncode a).len := by
  unfold State.afterEncode
  split <;> rfl

section Columns

variable {i : Instr} {s t : State} (h : Effect i s t)
include h

theorem Effect.readReg {r : Reg} (hr : destination i ≠ some r) : t.readReg r = s.readReg r := by
  have hne {rd : Reg} (hd : destination i = some rd) : r ≠ rd := fun e => hr (e ▸ hd)
  cases h with
  | writes hd v => exact s.readReg_writeReg_other (hne hd) v
  | draws hd => exact s.readReg_writeReg_other (hne hd) s.freeValue
  | reads _ hd _ v => exact s.readReg_writeReg_other (hne hd) v
  | stores => rw [afterEncode_eq]; rfl
  | _ => rfl

theorem Effect.ord (hi : ¬ isCompare i) : t.ord = s.ord := by
  cases h with
  | orders hcompare => exact absurd hcompare hi
  | stores => rw [afterEncode_eq]; rfl
  | _ => rfl

theorem Effect.statusDF (hi : ¬ isDec i) : statusDF t.status = statusDF s.status := by
  cases h with
  | fallsShort hdec => exact absurd hdec hi
  | reads hdec => exact absurd hdec hi
  | overruns => exact statusDF_withFault ..
  | badLength => exact statusDF_withFault ..
  | stores => rw [afterEncode_eq]; rfl
  | _ => rfl

theorem Effect.statusReserved : statusReserved t.status = statusReserved s.status := by
  cases h with
  | fallsShort => exact statusReserved_withDF ..
  | reads => exact statusReserved_withDF ..
  | overruns => exact statusReserved_withFault ..
  | badLength => exact statusReserved_withFault ..
  | stores => rw [afterEncode_eq]; rfl
  | _ => rfl

theorem Effect.cur (henc : ¬ isEnc i) (hdec : ¬ isDec i) (hseek : ¬ isSeek i) : t.cur = s.cur := by
  cases h with
  | stores hi => exact absurd hi henc
  | reads hi => exact absurd hi hdec
  | seeks hi => exact absurd hi hseek
  | _ => rfl

theorem Effect.len (henc : ¬ isEnc i) (hsetlen : ¬ isSetlen i) : t.len = s.len := by
  cases h with
  | stores hi => exact absurd hi henc
  | setsLength hi => exact absurd hi hsetlen
  | _ => rfl

theorem Effect.outSame (hi : ¬ isRender i) : OutSame s t := by
  cases h with
  | renders hrender => exact absurd hrender hi
  | stores => rw [afterEncode_eq]; exact ⟨rfl, fun _ => rfl⟩
  | _ => exact ⟨rfl, fun _ => rfl⟩

theorem Effect.buf (hi : ¬ isEnc i) : t.buf = s.buf := by
  cases h with
  | stores henc => exact absurd henc hi
  | _ => rfl

/-- The bytes an effect stores lie in the 8 bytes at the cursor it started from. -/
theorem Effect.bytesSameOutside : BytesSameOutside s.cur.toNat 8 s t := by
  intro a ha
  cases h with
  | stores _ hb => rw [afterEncode_buf, Memory.read_writeList, dif_neg (by omega)]
  | _ => rfl

theorem Effect.cfg : t.cfg = s.cfg := by
  cases h with
  | stores => rw [afterEncode_eq]; rfl
  | _ => rfl

end Columns

/-! ## The words a step takes (10_state.md R24) -/

/-- A step takes one or three words off the head of the stream. -/
theorem step_takes {s t : State} (h : step s = .next t) :
    (∃ w, s.stream = w :: t.stream) ∨ ∃ w word1 word2, s.stream = w :: word1 :: word2 :: t.stream := by
  have htakes := decode_takes s.stream
  obtain ⟨-, ⟨i, rest, hd, hexec⟩ | ⟨why, w, rest, hd, rfl⟩⟩ := step_cases h
  · rw [hd] at htakes
    rw [(exec_effect hexec).stream]
    exact htakes
  · rw [hd] at htakes
    exact .inl ⟨w, htakes⟩

/-! ## The frames of two operations -/

theorem onlyReg_writeReg (s : State) (r : Reg) (v : Value) : OnlyReg r s (s.writeReg r v) :=
  ⟨fun _ hne => s.readReg_writeReg_other hne v, rfl, ⟨rfl, rfl⟩, ⟨rfl, rfl⟩, ⟨rfl, fun _ => rfl⟩, fun _ => rfl,
    ⟨rfl, rfl⟩, rfl⟩

theorem onlyOut_setOut (s : State) (bytes : List Byte) : OnlyOut s (s.setOut bytes) :=
  ⟨fun _ => rfl, rfl, ⟨rfl, rfl⟩, ⟨rfl, rfl⟩, fun _ => rfl, ⟨rfl, rfl⟩, rfl⟩

/-! ## Reset values (70_reset_and_hazards.md R240) -/

theorem readReg_resetWith (cfg : Config) (buf : Memory) (r : Reg) :
    (State.resetWith cfg buf).readReg r = ⟨0, 0⟩ := by
  simp [State.readReg, State.resetWith]

theorem hostOut_resetWith (cfg : Config) (buf : Memory) (i : Fin 64) : (State.resetWith cfg buf).hostOut i = 0 := by
  simp [State.hostOut, State.resetWith]

/-! ## The readout by number (10_state.md R27) -/

theorem hostControl_of_ge (s : State) {n : Nat} (hn : 6 ≤ n) : s.hostControl n = 0 := by
  obtain ⟨k, rfl⟩ := Nat.exists_eq_add_of_le' hn
  rfl

end Sys2Proof.Machine

namespace Sys2Proof.Proofs

open Sys2Proof.Machine Sys2Proof.Claims

/-- Settles O19: every command has one of the effects, and each effect keeps the columns its command is not in. -/
theorem commandsWriteOnlyWhatTheTableShows : Obligations.CommandsWriteOnlyWhatTheTableShows := by
  intro i s t hexec
  have h := exec_effect hexec
  refine ⟨fun _ => h.readReg, h.ord, h.statusDF, h.cur, h.len, h.outSame, fun hi a => ?_,
    fun _ => h.bytesSameOutside, ⟨h.cfg, h.stream⟩, h.statusReserved⟩
  rw [h.buf hi]

/-- Settles O8: the decoder takes one or three words, and the command itself none. -/
theorem stepRemovesOneOrThreeWords : Obligations.StepRemovesOneOrThreeWords := by
  intro s t h
  obtain ⟨w, hw⟩ | ⟨w, word1, word2, hw⟩ := step_takes h
  · exact ⟨[w], hw, .inl rfl⟩
  · exact ⟨[w, word1, word2], hw, .inr rfl⟩

/-- Settles O14: each of the numbered registers is at most 32 bits wide. -/
theorem readoutByRegisterNumber : Obligations.ReadoutByRegisterNumber :=
  fun s => ⟨rfl, rfl, BitVec.toNat_setWidth_of_le (by decide), BitVec.toNat_setWidth_of_le (by decide),
    BitVec.toNat_setWidth_of_le (by decide), BitVec.toNat_setWidth_of_le (by decide),
    fun _ hn => hostControl_of_ge s hn⟩

/-- Settles O22. -/
theorem registersReadWhatWasWritten : Obligations.RegistersReadWhatWasWritten :=
  ⟨fun s r v => ⟨s.readReg_writeReg_same r v, onlyReg_writeReg s r v⟩, readReg_resetWith _ _⟩

/-- Settles O23. -/
theorem outputAssignmentReplacesTheBuffer : Obligations.OutputAssignmentReplacesTheBuffer := by
  refine ⟨⟨rfl, hostOut_resetWith _ _⟩, fun s bytes hb => ⟨fun i => ?_, s.outlen_setOut hb, s.outBytes_setOut hb,
    onlyOut_setOut s bytes⟩⟩
  rw [State.hostOut_setOut]
  split
  case isTrue hi => exact List.getD_eq_getElem _ _ hi
  case isFalse hi => exact List.getD_eq_default _ _ (Nat.le_of_not_lt hi)

end Sys2Proof.Proofs
end

section
/-!
PROOFS. The statements of the family 20_memory.md: the bytes a write leaves in `BUF` and a read finds there, the bytes
of a limb in both orders, and a field read in another order than it was written in.
-/

namespace Sys2Proof.Machine

open Sys2Proof.Claims

/-! ## The bytes of `BUF` (20_memory.md R53, R54) -/

theorem Memory.read_writeList_inside (m : Memory) (a : Nat) {bs : List Byte} {i : Nat} (hi : i < bs.length) :
    Memory.read (Memory.writeList m a bs) (a + i) = bs[i] := by
  simp [Memory.read_writeList, hi]

/-- Reading back a whole list of bytes. -/
theorem Memory.map_read_writeList (m : Memory) (a : Nat) {bs : List Byte} {n : Nat} (hn : bs.length = n) :
    (List.range n).map (fun i => Memory.read (Memory.writeList m a bs) (a + i)) = bs :=
  List.ext_getElem (by simp [hn]) fun i _ hi => by simp [Memory.read_writeList_inside m a hi]

theorem bytesSameOutside_writeList (s : State) (a : Nat) (bs : List Byte) :
    BytesSameOutside a bs.length s { s with buf := Memory.writeList s.buf a bs } :=
  fun x hx => by rw [Memory.read_writeList, dif_neg (by omega)]

section Inside

variable {s : State} {addr : Nat}

theorem memRead_inside {n : Nat} (h : addr + n ≤ s.cfg.bufSize) :
    s.memRead addr n = some ((List.range n).map fun i => Memory.read s.buf (addr + i)) := if_pos h

theorem memWrite_inside {bytes : List Byte} (h : addr + bytes.length ≤ s.cfg.bufSize) :
    s.memWrite addr bytes = some { s with buf := Memory.writeList s.buf addr bytes } := if_pos h

theorem memRead32_inside (h : addr + 4 ≤ s.cfg.bufSize) (order : ByteOrder) :
    s.memRead32 addr order = some (fieldLimb order ((List.range 4).map fun i => Memory.read s.buf (addr + i))) := by
  rw [State.memRead32, memRead_inside h, Option.map_some]

/-- A limb written inside `BUF`, its bytes in the order given those of `byte`: these and no other byte are set, and the
limb is read back. -/
theorem memWrite32_inside (h : addr + 4 ≤ s.cfg.bufSize) {order : ByteOrder} {x : Limb} {byte : Nat → Byte}
    (hbyte : fieldBytes order x = (List.range 4).map byte) :
    ∃ t, s.memWrite32 addr order x = some t ∧ (∀ i, i < 4 → Memory.read t.buf (addr + i) = byte i) ∧
      BytesSameOutside addr 4 s t ∧ t.memRead32 addr order = some x := by
  have hlen := fieldBytes_length order x
  refine ⟨_, memWrite_inside (hlen.symm ▸ h), fun i hi => ?_, hlen ▸ bytesSameOutside_writeList s addr _, ?_⟩
  · rw [Memory.read_writeList_inside _ _ (hlen.symm ▸ hi)]
    simp [hbyte]
  · have hread := memRead32_inside (s := { s with buf := Memory.writeList s.buf addr (fieldBytes order x) }) h order
    rw [hread, Memory.map_read_writeList _ _ hlen, fieldLimb_fieldBytes]

end Inside

/-! ## The bytes of a limb (20_memory.md R55, R56, R59) -/

/-- Four bytes as a number, the most significant first. -/
theorem limbOfBytes_toNat (b0 b1 b2 b3 : Byte) :
    (limbOfBytes [b0, b1, b2, b3]).toNat =
      b0.toNat * 2 ^ 24 + b1.toNat * 2 ^ 16 + b2.toNat * 2 ^ 8 + b3.toNat := by
  have h0 := b0.isLt
  have h1 := b1.isLt
  have h2 := b2.isLt
  have h3 := b3.isLt
  simp only [limbOfBytes, List.foldl_cons, List.foldl_nil, BitVec.toNat_ofNat]
  omega

theorem ofNat_bitField_eq_limbByte (x : Limb) (j : Nat) :
    BitVec.ofNat 8 (bitField x (8 * j + 7) (8 * j)) = limbByte x j := by
  apply BitVec.eq_of_toNat_eq
  rw [limbByte_toNat x _ _ (by omega), limbByte, BitVec.toNat_ofNat]

theorem fieldBytes_be (x : Limb) : fieldBytes .be x = (List.range 4).map fun i => limbByte x (3 - i) := by
  simp only [← ofNat_bitField_eq_limbByte]
  rfl

theorem fieldBytes_le (x : Limb) : fieldBytes .le x = (List.range 4).map fun i => limbByte x i := by
  simp only [← ofNat_bitField_eq_limbByte]
  rfl

theorem limbOfBytes_reverse_bytesOfLimb (x : Limb) : limbOfBytes (bytesOfLimb x).reverse = byterev x := by
  simp only [limbOfBytes, bytesOfLimb, byterev, List.reverse_cons, List.reverse_nil, List.nil_append, List.cons_append,
    List.foldl_cons, List.foldl_nil]
  rw [limbByte_toNat x 31 24 rfl, limbByte_toNat x 23 16 rfl, limbByte_toNat x 15 8 rfl, limbByte_toNat x 7 0 rfl]
  exact congrArg (BitVec.ofNat 32) (by omega)

/-- The bytes of a limb in one order are those of the reversed limb in the other. -/
theorem fieldBytes_byterev {o1 o2 : ByteOrder} (ho : o1 ≠ o2) (x : Limb) :
    fieldBytes o2 (byterev x) = fieldBytes o1 x := by
  have hrev : bytesOfLimb (byterev x) = (bytesOfLimb x).reverse := by
    rw [← limbOfBytes_reverse_bytesOfLimb]
    exact bytesOfLimb_limbOfBytes ..
  cases o1 <;> cases o2
  case be.le => exact (congrArg List.reverse hrev).trans (List.reverse_reverse _)
  case le.be => exact hrev
  all_goals exact absurd rfl ho

/-- The 8 bytes of a value in one order are, in the other, those of the value with its limbs exchanged and the bytes
of each reversed (20_memory.md R59). -/
theorem valueBytes_byterev {o1 o2 : ByteOrder} (ho : o1 ≠ o2) (v : Value) :
    valueBytes o2 ⟨byterev v.low, byterev v.high⟩ = valueBytes o1 v := by
  cases o1 <;> cases o2
  case be.le | le.be => simp only [valueBytes, fieldBytes_byterev ho]
  all_goals exact absurd rfl ho

/-! ## `ENC`, `SEEK` back and `DEC` (46_byte_serialization.md R194, R196, R197) -/

/-- What `DEC` in any order reads back after `ENC` in any order: the value with the same 8 bytes. -/
theorem exec_enc_seek_dec {s : State} (hwf : s.cfg.wf) (hfit : s.cur.toNat + 8 ≤ s.cfg.bufSize) (ra rd : Reg)
    (o1 o2 : ByteOrder) :
    ∃ t v, exec (.enc ra o1) s = .next t ∧ exec (.seek s.cur) t = .next (t.setCur s.cur) ∧
      valueBytes o2 v = valueBytes o1 (s.readReg ra) ∧
      exec (.dec rd o2) (t.setCur s.cur) =
        .next ((((t.setCur s.cur).writeReg rd v).setCur (BitVec.ofNat 16 (s.cur.toNat + 8))).setDF false) := by
  have henc : exec (.enc ra o1) s = _ := execEnc_stores hfit
  have hcfg := (exec_effect henc).cfg
  set t := State.afterEncode _ _ with ht
  have hlen : s.cur.toNat + 8 ≤ t.len.toNat := by
    obtain ⟨-, hmax⟩ := hwf
    rw [ht, afterEncode_len (by omega)]
    exact le_max_right ..
  have hsize : s.cur.toNat + 8 ≤ t.cfg.bufSize := by rwa [hcfg]
  obtain ⟨v, hv, hdec⟩ := execDec_reads (rd := rd) (order := o2) (s := t.setCur s.cur) hlen hsize
  refine ⟨t, v, henc, rfl, hv.trans ?_, hdec⟩
  rw [State.setCur_buf, ht, afterEncode_buf]
  exact Memory.map_read_writeList s.buf s.cur.toNat (valueBytes_length ..)

end Sys2Proof.Machine

namespace Sys2Proof.Proofs

open Sys2Proof.Machine Sys2Proof.Claims

/-- Settles O24, by the read law of a written list of bytes. -/
theorem memoryPrimitivesReadAndWriteBytes : Obligations.MemoryPrimitivesReadAndWriteBytes :=
  fun s addr bytes h =>
    ⟨_, memWrite_inside h, fun _ hi => Memory.read_writeList_inside s.buf addr hi,
      bytesSameOutside_writeList s addr bytes, ⟨fun _ => rfl, rfl, ⟨rfl, fun _ => rfl⟩, rfl, rfl⟩, ⟨rfl, rfl⟩,
      ⟨rfl, rfl⟩, rfl, memRead_inside h⟩

/-- Settles O25: the read as the number of its four bytes, and the write, each in both orders. -/
theorem fieldPrimitivesFollowTheByteOrder : Obligations.FieldPrimitivesFollowTheByteOrder :=
  fun _ _ x h =>
    ⟨⟨_, memRead32_inside h .be, limbOfBytes_toNat ..⟩, ⟨_, memRead32_inside h .le, limbOfBytes_toNat ..⟩,
      memWrite32_inside h (fieldBytes_be x), memWrite32_inside h (fieldBytes_le x)⟩

/-- Settles O58: the value read back has the 8 bytes of the one written, and these determine it. -/
theorem mixedOrderReversesTheBytes : Obligations.MixedOrderReversesTheBytes := by
  intro ra rd o1 o2 s ho hwf hfit
  obtain ⟨t, v, henc, hseek, hv, hdec⟩ := exec_enc_seek_dec hwf hfit ra rd o1 o2
  refine ⟨t, _, _, henc, hseek, hdec, ?_⟩
  calc
    _ = v := State.readReg_writeReg_same ..
    _ = _ := valueBytes_inj (hv.trans (valueBytes_byterev ho _).symm)

end Sys2Proof.Proofs
end

section
/-!
PROOFS. The statements of the family 30_encoding.md. A command and its word determine each other
(`commandWord_withFields`, `withFields_commandWord`), and so do a command and its literal words; the decoder's table is
said once, in terms of both (`decode_oneWord`, `decode_threeWords`, `decode_unknownOpcode`).
-/

namespace Sys2Proof

open Sys2Proof.Claims

/-! ## The opcode table (30_encoding.md R82, R86) -/

/-- One command of each row of 30_encoding.md R86, in its order, every operand at 0. -/
def Instr.rowCommands : List Instr :=
  [.fromlimbs 0 0 0, .fromint 0 false 0, .and 0 0 0, .or 0 0 0, .xor 0 0 0, .not 0 0, .shl 0 0 0, .shrz 0 0 0,
    .rotl 0 0 0, .rotr 0 0 0, .add 0 0 0, .sub 0 0 0, .ucmp 0 0, .scmp 0 0, .ustr 0, .sstr 0,
    .hex 0, .bstr 0, .bits 0, .bytes 0, .enc 0 .be, .dec 0 .be, .seek 0, .setlen 0]

theorem Instr.exists_rowCommand (i : Instr) :
    ∃ r ∈ Instr.rowCommands, r.opcode = i.opcode ∧ r.format = i.format := by
  have h : (Instr.rowCommands.any fun r => r.opcode == i.opcode && r.format == i.format) = true := by
    cases i <;> rfl
  simpa using h

theorem Instr.opcode_lt (i : Instr) : i.opcode < 256 := by
  have hrows : ∀ r ∈ Instr.rowCommands, r.opcode < 256 := by decide
  obtain ⟨r, hr, hro, -⟩ := i.exists_rowCommand
  exact hro ▸ hrows r hr

/-- No opcode stands in two formats. -/
theorem Instr.format_eq_of_opcode_eq {i j : Instr} (h : i.opcode = j.opcode) : i.format = j.format := by
  have hrows : ∀ r ∈ Instr.rowCommands, ∀ t ∈ Instr.rowCommands, r.opcode = t.opcode → r.format = t.format := by
    decide
  obtain ⟨r, hr, hro, hrf⟩ := i.exists_rowCommand
  obtain ⟨t, ht, hto, htf⟩ := j.exists_rowCommand
  rw [← hrf, ← htf]
  exact hrows r hr t ht (by rw [hro, hto, h])

/-- The mask column of 30_encoding.md R82. -/
def Format.mask : Format → Word
  | .r3 => 0xFF000FFF
  | .r2 => 0xFF00FFFF
  | .ri => 0xFF00FF00
  | .cmp => 0xFFF00FFF
  | .src => 0xFFF0FFFF
  | .enc => 0xFFF0FFFE
  | .dec => 0xFF0FFFFE
  | .imm => 0xFFFF0000
  | .lit => 0xFF0FFFFF

/-- match and mask of a command (30_encoding.md R82). -/
def Instr.row (i : Instr) : Word × Word := (BitVec.ofNat 32 (i.opcode * 2 ^ 24), i.format.mask)

theorem commandTable_eq : commandTable = Instr.rowCommands.map Instr.row := by decide

theorem Format.getLsbD_mask (f : Format) :
    ∀ k : Fin 32, f.mask.getLsbD k.val = (decide (24 ≤ k.val) || f.isReserved k.val) := by
  cases f <;> decide

theorem Format.reserved_lt (f : Format) : ∀ r ∈ f.reserved, r.1 < 24 := by
  cases f <;> decide

theorem getLsbD_match (op : Nat) (k : Fin 32) :
    (BitVec.ofNat 32 (op * 2 ^ 24)).getLsbD k.val = (decide (24 ≤ k.val) && op.testBit (k.val - 24)) := by
  rw [BitVec.getLsbD_ofNat, Nat.testBit_mul_two_pow, decide_eq_true k.isLt, Bool.true_and]

theorem and_row_iff (i : Instr) (w : Word) :
    w &&& i.row.2 = i.row.1 ↔ bitField w 31 24 = i.opcode ∧ i.format.clear w = true :=
  row_iff w i.opcode_lt i.format.getLsbD_mask (getLsbD_match i.opcode) i.format.reserved_lt

/-- A legal word has the opcode of a command and that command's reserved bits at 0. -/
theorem legalWord_iff (w : Word) :
    LegalWord w ↔ ∃ i : Instr, bitField w 31 24 = i.opcode ∧ i.format.clear w = true := by
  rw [LegalWord, commandTable_eq]
  constructor
  · rintro ⟨row, hrow, h⟩
    obtain ⟨i, -, rfl⟩ := List.mem_map.mp hrow
    exact ⟨i, (and_row_iff i w).mp h⟩
  · rintro ⟨i, h⟩
    obtain ⟨r, hr, hro, hrf⟩ := i.exists_rowCommand
    exact ⟨r.row, List.mem_map_of_mem hr, (and_row_iff r w).mpr (by rwa [hro, hrf])⟩

theorem legalWord_iff_clear {i : Instr} {w : Word} (hop : bitField w 31 24 = i.opcode) :
    LegalWord w ↔ i.format.clear w = true := by
  rw [legalWord_iff]
  constructor
  · rintro ⟨j, hj, hclear⟩
    rwa [Instr.format_eq_of_opcode_eq (hop.symm.trans hj)]
  · exact fun hclear => ⟨i, hop, hclear⟩

theorem literalHead_iff_exists (w : Word) :
    LiteralHead w ↔ ∃ i : Instr, bitField w 31 24 = i.opcode ∧ i.format = .lit ∧ i.format.clear w = true := by
  rw [Machine.literalHead_iff]
  constructor
  · rintro ⟨hop | hop, hclear⟩
    · exact ⟨.fromlimbs 0 0 0, hop, rfl, hclear⟩
    · exact ⟨.fromint 0 false 0, hop, rfl, hclear⟩
  · rintro ⟨i, hop, hf, hclear⟩
    refine ⟨?_, hf ▸ hclear⟩
    cases i
    case fromlimbs => exact .inl hop
    case fromint => exact .inr hop
    all_goals cases hf

/-! ## The command word (30_encoding.md R81, R82) -/

/-- The command with the operands that stand in the command word taken from `w`. -/
def Instr.withFields (w : Word) : Instr → Instr
  | .fromlimbs _ high low => .fromlimbs (fieldRd w) high low
  | .fromint _ sign mag => .fromint (fieldRd w) sign mag
  | .and _ _ _ => .and (fieldRd w) (fieldRa w) (fieldRb w)
  | .or _ _ _ => .or (fieldRd w) (fieldRa w) (fieldRb w)
  | .xor _ _ _ => .xor (fieldRd w) (fieldRa w) (fieldRb w)
  | .not _ _ => .not (fieldRd w) (fieldRa w)
  | .shl _ _ _ => .shl (fieldRd w) (fieldRa w) (fieldN w)
  | .shrz _ _ _ => .shrz (fieldRd w) (fieldRa w) (fieldN w)
  | .rotl _ _ _ => .rotl (fieldRd w) (fieldRa w) (fieldN w)
  | .rotr _ _ _ => .rotr (fieldRd w) (fieldRa w) (fieldN w)
  | .add _ _ _ => .add (fieldRd w) (fieldRa w) (fieldRb w)
  | .sub _ _ _ => .sub (fieldRd w) (fieldRa w) (fieldRb w)
  | .ucmp _ _ => .ucmp (fieldRa w) (fieldRb w)
  | .scmp _ _ => .scmp (fieldRa w) (fieldRb w)
  | .ustr _ => .ustr (fieldRa w)
  | .sstr _ => .sstr (fieldRa w)
  | .hex _ => .hex (fieldRa w)
  | .bstr _ => .bstr (fieldRa w)
  | .bits _ => .bits (fieldRa w)
  | .bytes _ => .bytes (fieldRa w)
  | .enc _ _ => .enc (fieldRa w) (fieldE w)
  | .dec _ _ => .dec (fieldRd w) (fieldE w)
  | .seek _ => .seek (fieldImm w)
  | .setlen _ => .setlen (fieldImm w)

@[simp] theorem Instr.format_withFields (w : Word) (i : Instr) : (i.withFields w).format = i.format := by
  cases i <;> rfl

theorem fieldN_le (w : Word) : fieldN w ≤ 255 := Nat.le_of_lt_succ (bitField_lt w 7 0)

theorem wellFormed_withFields (w : Word) {i : Instr} (hf : i.format ≠ .lit) : WellFormed (i.withFields w) = true := by
  cases i
  case fromlimbs | fromint => exact absurd rfl hf
  case shl | shrz | rotl | rotr => exact decide_eq_true (fieldN_le w)
  all_goals rfl

/-- The opcode and the reserved bits of every command's word, from the laws per command. -/
theorem headWord : ∀ i : Instr, Laws.HeadWord.Statement i
  | .fromlimbs rd high low => Laws.HeadWord.fromlimbs rd high low
  | .fromint rd sign mag => Laws.HeadWord.fromint rd sign mag
  | .and rd ra rb => Laws.HeadWord.and rd ra rb
  | .or rd ra rb => Laws.HeadWord.or rd ra rb
  | .xor rd ra rb => Laws.HeadWord.xor rd ra rb
  | .not rd ra => Laws.HeadWord.not rd ra
  | .shl rd ra n => Laws.HeadWord.shl rd ra n
  | .shrz rd ra n => Laws.HeadWord.shrz rd ra n
  | .rotl rd ra n => Laws.HeadWord.rotl rd ra n
  | .rotr rd ra n => Laws.HeadWord.rotr rd ra n
  | .add rd ra rb => Laws.HeadWord.add rd ra rb
  | .sub rd ra rb => Laws.HeadWord.sub rd ra rb
  | .ucmp ra rb => Laws.HeadWord.ucmp ra rb
  | .scmp ra rb => Laws.HeadWord.scmp ra rb
  | .ustr ra => Laws.HeadWord.ustr ra
  | .sstr ra => Laws.HeadWord.sstr ra
  | .hex ra => Laws.HeadWord.hex ra
  | .bstr ra => Laws.HeadWord.bstr ra
  | .bits ra => Laws.HeadWord.bits ra
  | .bytes ra => Laws.HeadWord.bytes ra
  | .enc ra order => Laws.HeadWord.enc ra order
  | .dec rd order => Laws.HeadWord.dec rd order
  | .seek imm => Laws.HeadWord.seek imm
  | .setlen imm => Laws.HeadWord.setlen imm

/-! ### A command word determines its command -/

theorem ByteOrder.bit_lt (order : ByteOrder) : order.bit < 2 := by
  cases order <;> decide

/-- The fields of a command's word are the operands it was encoded from. -/
theorem withFields_commandWord {i : Instr} (hi : WellFormed i = true) : i.withFields (commandWord i) = i := by
  have hop := i.opcode_lt
  cases i
  case and rd ra rb | or rd ra rb | xor rd ra rb | add rd ra rb | sub rd ra rb =>
    have fit : FieldsFit _ rd.val ra.val rb.val 0 := ⟨hop, rd.isLt, ra.isLt, by omega⟩
    simp only [commandWord, Instr.withFields, fieldRd_packWord fit, fieldRa_packWord fit, fieldRb_packWord fit]
  case not rd ra =>
    have fit : FieldsFit _ rd.val ra.val 0 0 := ⟨hop, rd.isLt, ra.isLt, by decide⟩
    simp only [commandWord, Instr.withFields, fieldRd_packWord fit, fieldRa_packWord fit]
  case shl rd ra n | shrz rd ra n | rotl rd ra n | rotr rd ra n =>
    have hn : n ≤ 255 := of_decide_eq_true hi
    have fit : FieldsFit _ rd.val ra.val 0 n := ⟨hop, rd.isLt, ra.isLt, by omega⟩
    simp only [commandWord, Instr.withFields, fieldRd_packWord fit, fieldRa_packWord fit, fieldN_packWord hn fit]
  case ucmp ra rb | scmp ra rb =>
    have fit : FieldsFit _ 0 ra.val rb.val 0 := ⟨hop, by decide, ra.isLt, by omega⟩
    simp only [commandWord, Instr.withFields, fieldRa_packWord fit, fieldRb_packWord fit]
  case ustr ra | sstr ra | hex ra | bstr ra | bits ra | bytes ra =>
    have fit : FieldsFit _ 0 ra.val 0 0 := ⟨hop, by decide, ra.isLt, by decide⟩
    simp only [commandWord, Instr.withFields, fieldRa_packWord fit]
  case enc ra order =>
    have fit : FieldsFit _ 0 ra.val 0 order.bit := ⟨hop, by decide, ra.isLt, by have := order.bit_lt; omega⟩
    simp only [commandWord, Instr.withFields, fieldRa_packWord fit, fieldE_packWord fit]
  case dec rd order =>
    have fit : FieldsFit _ rd.val 0 0 order.bit := ⟨hop, rd.isLt, by decide, by have := order.bit_lt; omega⟩
    simp only [commandWord, Instr.withFields, fieldRd_packWord fit, fieldE_packWord fit]
  case seek imm | setlen imm =>
    have fit : FieldsFit _ 0 0 0 imm.toNat := ⟨hop, by decide, by decide, by omega⟩
    simp only [commandWord, Instr.withFields, fieldImm_packWord fit]
  case fromlimbs rd _ _ | fromint rd _ _ =>
    have fit : FieldsFit _ rd.val 0 0 0 := ⟨hop, rd.isLt, by decide, by decide⟩
    simp only [commandWord, Instr.withFields, fieldRd_packWord fit]

/-! ### A command determines its command word -/

theorem fieldE_bit (w : Word) : (fieldE w).bit = bitField w 0 0 := by
  have hlt := bitField_lt w 0 0
  rw [fieldE]
  split
  case isTrue h => exact h.symm
  case isFalse h => simp only [ByteOrder.bit]; omega

theorem fieldImm_toNat (w : Word) : (fieldImm w).toNat = bitField w 15 0 := by
  rw [fieldImm, BitVec.toNat_ofNat]
  exact Nat.mod_eq_of_lt (bitField_lt w 15 0)

/-- A field is its part above bit `mid` and its part from bit `mid` down. -/
theorem bitField_split (w : Word) {hi lo : Nat} (mid : Nat) (hlo : lo ≤ mid) (hhi : mid ≤ hi) :
    bitField w hi lo = bitField w hi (mid + 1) * 2 ^ (mid + 1 - lo) + bitField w mid lo := by
  have hsize : 2 ^ (hi + 1 - lo) = 2 ^ (mid + 1 - lo) * 2 ^ (hi + 1 - (mid + 1)) := by
    rw [← Nat.pow_add]; congr 1; omega
  have hshift : 2 ^ (mid + 1) = 2 ^ lo * 2 ^ (mid + 1 - lo) := by
    rw [← Nat.pow_add]; congr 1; omega
  rw [bitField, bitField, bitField, hsize, Nat.mod_mul, hshift, Nat.div_div_eq_div_mul]
  ring

theorem bitField_eq_zero_of_split {w : Word} {hi lo : Nat} (h : bitField w hi lo = 0) (mid : Nat) (hlo : lo ≤ mid)
    (hhi : mid ≤ hi) : bitField w hi (mid + 1) = 0 ∧ bitField w mid lo = 0 := by
  simp only [bitField_eq_zero_iff] at *
  exact ⟨fun k hk hk' => h k (by omega) hk', fun k hk hk' => h k hk (by omega)⟩

/-- The low half of a word with an `rb` field. -/
theorem low_eq_rb (w : Word) : bitField w 15 0 = (fieldRb w).val * 2 ^ 12 + bitField w 11 0 :=
  fieldRb_val w ▸ bitField_split w 11 (by decide) (by decide)

/-- The low half of a word with an amount. -/
theorem low_eq_n (w : Word) : bitField w 15 0 = bitField w 15 8 * 2 ^ 8 + fieldN w :=
  bitField_split w 7 (by decide) (by decide)

/-- The low half of a word with a byte-order selector. -/
theorem low_eq_e (w : Word) : bitField w 15 0 = bitField w 15 1 * 2 ^ 1 + (fieldE w).bit :=
  fieldE_bit w ▸ bitField_split w 0 (by decide) (by decide)

/-- A word is its opcode, its two upper register fields and its low half. -/
theorem packWord_eq {w : Word} {op rd ra rb low : Nat} (hop : bitField w 31 24 = op) (hrd : bitField w 23 20 = rd)
    (hra : bitField w 19 16 = ra) (hlow : bitField w 15 0 = rb * 2 ^ 12 + low) : packWord op rd ra rb low = w := by
  have hw := word_eq_fields w
  have hsplit := bitField_split w (hi := 15) (lo := 0) 11 (by decide) (by decide)
  apply BitVec.eq_of_toNat_eq
  rw [packWord, ← hop, ← hrd, ← hra, Nat.add_assoc, ← hlow, hsplit, BitVec.toNat_ofNat, ← Nat.add_assoc, ← hw]
  exact Nat.mod_eq_of_lt w.isLt

/-- Packing the fields of a word gives the word back, where its opcode is the command's and its reserved bits are 0. -/
theorem commandWord_withFields {i : Instr} {w : Word} (hop : bitField w 31 24 = i.opcode)
    (hclear : i.format.clear w = true) : commandWord (i.withFields w) = w := by
  have hrd := (fieldRd_val w).symm
  have hra := (fieldRa_val w).symm
  simp only [Format.clear, List.all_eq_true, beq_iff_eq] at hclear
  cases i
  case and | or | xor | add | sub =>
    have hlow : bitField w 11 0 = 0 := hclear _ (.head _)
    exact packWord_eq hop hrd hra (by rw [low_eq_rb, hlow])
  case not =>
    have hlow : bitField w 15 0 = 0 := hclear _ (.head _)
    exact packWord_eq hop hrd hra hlow
  case shl | shrz | rotl | rotr =>
    have hlow : bitField w 15 8 = 0 := hclear _ (.head _)
    exact packWord_eq hop hrd hra (by rw [low_eq_n, hlow, Nat.zero_mul, Nat.zero_mul])
  case ucmp | scmp =>
    have hrd : bitField w 23 20 = 0 := hclear _ (.head _)
    have hlow : bitField w 11 0 = 0 := hclear _ (.tail _ (.head _))
    exact packWord_eq hop hrd hra (by rw [low_eq_rb, hlow])
  case ustr | sstr | hex | bstr | bits | bytes =>
    have hrd : bitField w 23 20 = 0 := hclear _ (.head _)
    have hlow : bitField w 15 0 = 0 := hclear _ (.tail _ (.head _))
    exact packWord_eq hop hrd hra hlow
  case enc =>
    have hrd : bitField w 23 20 = 0 := hclear _ (.head _)
    have hlow : bitField w 15 1 = 0 := hclear _ (.tail _ (.head _))
    exact packWord_eq hop hrd hra (by rw [low_eq_e, hlow, Nat.zero_mul, Nat.zero_mul])
  case dec =>
    have hzero : bitField w 19 1 = 0 := hclear _ (.head _)
    obtain ⟨hra, hlow⟩ := bitField_eq_zero_of_split hzero 15 (by decide) (by decide)
    exact packWord_eq hop hrd hra (by rw [low_eq_e, hlow, Nat.zero_mul, Nat.zero_mul])
  case seek | setlen =>
    have hzero : bitField w 23 16 = 0 := hclear _ (.head _)
    obtain ⟨hrd, hra⟩ := bitField_eq_zero_of_split hzero 19 (by decide) (by decide)
    exact packWord_eq hop hrd hra (by rw [fieldImm_toNat, Nat.zero_mul, Nat.zero_add])
  case fromlimbs | fromint =>
    have hzero : bitField w 19 0 = 0 := hclear _ (.head _)
    obtain ⟨hra, hlow⟩ := bitField_eq_zero_of_split hzero 15 (by decide) (by decide)
    exact packWord_eq hop hrd hra hlow

/-! ## The literal words (30_encoding.md R83) -/

/-- A three-word command with its literal words replaced by the two given. -/
def Instr.withLiterals : Instr → Word → Word → Instr
  | .fromlimbs rd _ _, word1, word2 => .fromlimbs rd word1 word2
  | .fromint rd _ _, word1, word2 => fromintOfWords rd word1 word2
  | i, _, _ => i

theorem literalWords_of_ne_lit {i : Instr} (hf : i.format ≠ .lit) : literalWords i = [] := by
  cases i
  case fromlimbs | fromint => exact absurd rfl hf
  all_goals rfl

theorem commandWord_withLiterals (i : Instr) (word1 word2 : Word) :
    commandWord (i.withLiterals word1 word2) = commandWord i := by
  cases i <;> rfl

/-- The sign bit and the magnitude bits of a literal word 1 are all of it. -/
theorem word_eq_sign_magnitude (word1 : Word) :
    word1.toNat = (bitField word1 31 31 == 1).toNat * 2 ^ 31 + bitField word1 30 0 := by
  have hsign := bitField_lt word1 31 31
  have hbit : (bitField word1 31 31 == 1).toNat = bitField word1 31 31 := by
    interval_cases bitField word1 31 31 <;> rfl
  rw [hbit]
  simp only [bitField]
  omega

/-- `FROMINT`'s sign and magnitude hold every bit of its literal words. -/
theorem literalWords_fromintOfWords (rd : Reg) (word1 word2 : Word) :
    literalWords (fromintOfWords rd word1 word2) = [word1, word2] := by
  have hword1 := word_eq_sign_magnitude word1
  have hword2 := word2.isLt
  have hdiv : (bitField word1 30 0 * 2 ^ 32 + word2.toNat) / 2 ^ 32 = bitField word1 30 0 := by omega
  have hmod : (bitField word1 30 0 * 2 ^ 32 + word2.toNat) % 2 ^ 32 = word2.toNat := by omega
  rw [fromintOfWords, literalWords, hdiv, hmod, ← hword1, BitVec.ofNat_toNat, BitVec.ofNat_toNat]
  simp only [BitVec.setWidth_eq]

/-- The literal words of a `FROMINT` carry its sign and every magnitude below `2 ^ 63`. -/
theorem fromintOfWords_literalWords (rd : Reg) (sign : Bool) {mag : Nat} (hmag : mag < 2 ^ 63) :
    fromintOfWords rd (BitVec.ofNat 32 (sign.toNat * 2 ^ 31 + mag / 2 ^ 32)) (BitVec.ofNat 32 (mag % 2 ^ 32)) =
      .fromint rd sign mag := by
  have hsign : (sign.toNat == 1) = sign := by cases sign <;> rfl
  have h1 := sign.toNat_lt
  simp only [fromintOfWords, bitField, BitVec.toNat_ofNat]
  congr 1
  · have hbit : (sign.toNat * 2 ^ 31 + mag / 2 ^ 32) % 2 ^ 32 / 2 ^ 31 % 2 ^ (31 + 1 - 31) = sign.toNat := by omega
    rw [hbit, hsign]
  · omega

section Literal

variable {i : Instr} (hf : i.format = .lit)
include hf

theorem literalWords_withLiterals (word1 word2 : Word) : literalWords (i.withLiterals word1 word2) = [word1, word2] := by
  cases i
  case fromlimbs => rfl
  case fromint rd _ _ => exact literalWords_fromintOfWords rd word1 word2
  all_goals cases hf

theorem wellFormed_withLiterals (word1 word2 : Word) : WellFormed (i.withLiterals word1 word2) = true := by
  cases i
  case fromlimbs => rfl
  case fromint =>
    have hword1 := bitField_lt word1 30 0
    have hword2 := word2.isLt
    exact decide_eq_true (by omega)
  all_goals cases hf

/-- The literal words of a well-formed command are the operands it was encoded from. -/
theorem exists_literalWords (hi : WellFormed i = true) :
    ∃ word1 word2, literalWords i = [word1, word2] ∧
      ∀ w, (i.withFields w).withLiterals word1 word2 = i.withFields w := by
  cases i
  case fromlimbs rd high low => exact ⟨high, low, rfl, fun _ => rfl⟩
  case fromint rd sign mag =>
    exact ⟨_, _, rfl, fun w => fromintOfWords_literalWords (fieldRd w) sign (of_decide_eq_true hi)⟩
  all_goals cases hf

end Literal

/-! ## The decoder's table -/

section Table

variable {w : Word} {rest : List Word}

theorem decode_oneWord {i : Instr} (hop : bitField w 31 24 = i.opcode) (hf : i.format ≠ .lit) :
    decode (w :: rest) = oneWord (i.withFields w) w rest := by
  rw [decode, hop]
  cases i
  case fromlimbs | fromint => exact absurd rfl hf
  all_goals rfl

theorem decode_threeWords {i : Instr} (hop : bitField w 31 24 = i.opcode) (hf : i.format = .lit) :
    decode (w :: rest) = threeWords (i.withFields w).withLiterals w rest := by
  rw [decode, hop]
  cases i
  case fromlimbs | fromint => rfl
  all_goals cases hf

theorem decode_unknownOpcode (hop : ∀ i : Instr, bitField w 31 24 ≠ i.opcode) :
    decode (w :: rest) = .illegal .unknownOpcode w rest := by
  have hrows : ∀ op ∈ Instr.rowCommands.map Instr.opcode, bitField w 31 24 ≠ op := by
    simpa using fun r _ => hop r
  rw [decode]
  split
  case h_25 => rfl
  all_goals exact absurd ‹_› (hrows _ (by decide))

end Table

/-! ## The verdicts (30_encoding.md R87, R89) -/

section Verdicts

variable {w : Word} {rest : List Word}

theorem oneWord_of_clear {i : Instr} (h : i.format.clear w = true) : oneWord i w rest = .command i rest := if_pos h

theorem oneWord_eq_command_iff {i j : Instr} {tail : List Word} :
    oneWord i w rest = .command j tail ↔ i.format.clear w = true ∧ i = j ∧ rest = tail := by
  unfold oneWord
  split <;> simp [*]

theorem oneWord_eq_illegal_iff {i : Instr} :
    (∃ why, oneWord i w rest = .illegal why w rest) ↔ ¬ i.format.clear w = true := by
  unfold oneWord
  split <;> simp [*]

variable {make : Word → Word → Instr}

theorem threeWords_of_clear (h : Format.lit.clear w = true) (word1 word2 : Word) :
    threeWords make w (word1 :: word2 :: rest) = .command (make word1 word2) rest := if_pos h

theorem threeWords_short (h : Format.lit.clear w = true) (hlen : rest.length < 2) :
    threeWords make w rest = .truncated := by
  match rest, hlen with
  | [], _ | [_], _ => exact if_pos h

theorem threeWords_eq_command {j : Instr} {tail : List Word} (h : threeWords make w rest = .command j tail) :
    Format.lit.clear w = true ∧ ∃ word1 word2, make word1 word2 = j ∧ rest = word1 :: word2 :: tail := by
  unfold threeWords at h
  split at h
  case isTrue hclear =>
    refine ⟨hclear, ?_⟩
    split at h
    case h_1 word1 word2 _ =>
      cases h
      exact ⟨word1, word2, rfl, rfl⟩
    case h_2 => cases h
  case isFalse => cases h

theorem threeWords_eq_illegal_iff :
    (∃ why, threeWords make w rest = .illegal why w rest) ↔ ¬ Format.lit.clear w = true := by
  unfold threeWords
  split
  case isTrue hclear => split <;> simp [hclear]
  case isFalse hclear => simp [hclear]

/-! ### Encode and decode -/

/-- The decoder reads a command's words as that command. -/
theorem decode_encode {i : Instr} (hi : WellFormed i = true) : decode (encode i ++ rest) = .command i rest := by
  obtain ⟨hop, hclear⟩ := headWord i hi
  have hfields := withFields_commandWord hi
  by_cases hf : i.format = .lit
  · obtain ⟨word1, word2, hwords, hlit⟩ := exists_literalWords hf hi
    rw [encode, hwords]
    calc decode (commandWord i :: word1 :: word2 :: rest)
      _ = threeWords (i.withFields (commandWord i)).withLiterals _ _ := decode_threeWords hop hf
      _ = .command ((i.withFields (commandWord i)).withLiterals word1 word2) rest :=
        threeWords_of_clear (hf ▸ hclear) word1 word2
      _ = .command i rest := by rw [hlit, hfields]
  · rw [encode, literalWords_of_ne_lit hf]
    calc decode (commandWord i :: rest)
      _ = oneWord (i.withFields (commandWord i)) _ rest := decode_oneWord hop hf
      _ = .command i rest := by rw [hfields, oneWord_of_clear hclear]

/-- A decoded word has the opcode of a command. -/
theorem exists_opcode_of_decode_command {j : Instr} {tail : List Word} (h : decode (w :: rest) = .command j tail) :
    ∃ i : Instr, bitField w 31 24 = i.opcode := by
  by_contra hop
  rw [decode_unknownOpcode (not_exists.mp hop)] at h
  cases h

theorem encode_decode {i : Instr} {ws : List Word} (h : decode ws = .command i rest) :
    WellFormed i = true ∧ encode i ++ rest = ws := by
  cases ws with
  | nil => cases h
  | cons w tail =>
    obtain ⟨j, hop⟩ := exists_opcode_of_decode_command h
    by_cases hf : j.format = .lit
    · rw [decode_threeWords hop hf] at h
      obtain ⟨hclear, word1, word2, rfl, rfl⟩ := threeWords_eq_command h
      have hfw : (j.withFields w).format = .lit := by rw [Instr.format_withFields, hf]
      refine ⟨wellFormed_withLiterals hfw word1 word2, ?_⟩
      rw [encode, literalWords_withLiterals hfw, commandWord_withLiterals, commandWord_withFields hop (hf ▸ hclear)]
      rfl
    · rw [decode_oneWord hop hf, oneWord_eq_command_iff, Instr.format_withFields] at h
      obtain ⟨hclear, rfl, rfl⟩ := h
      have hfw : (j.withFields w).format ≠ .lit := by rwa [Instr.format_withFields]
      refine ⟨wellFormed_withFields w hf, ?_⟩
      rw [encode, literalWords_of_ne_lit hfw, commandWord_withFields hop hclear]
      rfl

/-! ### Illegal, literal and one-word heads -/

/-- The decoder's two reasons for an illegal word are the two ways in which no row can match. -/
theorem decode_illegal_iff : (∃ why, decode (w :: rest) = .illegal why w rest) ↔ ¬ LegalWord w := by
  by_cases hop : ∃ i : Instr, bitField w 31 24 = i.opcode
  · obtain ⟨i, hop⟩ := hop
    rw [legalWord_iff_clear hop]
    by_cases hf : i.format = .lit
    · rw [decode_threeWords hop hf, hf]
      exact threeWords_eq_illegal_iff
    · rw [decode_oneWord hop hf, ← Instr.format_withFields w i]
      exact oneWord_eq_illegal_iff
  · have hillegal : ¬ LegalWord w := by
      rw [legalWord_iff]
      exact fun ⟨i, hi, _⟩ => hop ⟨i, hi⟩
    exact iff_of_true ⟨_, decode_unknownOpcode (not_exists.mp hop)⟩ hillegal

theorem decode_literalHead (h : LiteralHead w) (word1 word2 : Word) :
    ∃ i, decode (w :: word1 :: word2 :: rest) = .command i rest ∧ literalWords i = [word1, word2] := by
  obtain ⟨i, hop, hf, hclear⟩ := (literalHead_iff_exists w).mp h
  rw [hf] at hclear
  refine ⟨(i.withFields w).withLiterals word1 word2, ?_, literalWords_withLiterals (by simpa using hf) word1 word2⟩
  rw [decode_threeWords hop hf, threeWords_of_clear hclear]

theorem decode_literalHead_short (h : LiteralHead w) (hlen : rest.length < 2) : decode (w :: rest) = .truncated := by
  obtain ⟨i, hop, hf, hclear⟩ := (literalHead_iff_exists w).mp h
  rw [decode_threeWords hop hf, threeWords_short (hf ▸ hclear) hlen]

theorem decode_legal_not_literal (h : LegalWord w) (hlit : ¬ LiteralHead w) :
    ∃ i, decode (w :: rest) = .command i rest := by
  obtain ⟨i, hop, hclear⟩ := (legalWord_iff w).mp h
  have hf : i.format ≠ .lit := fun hf => hlit ((literalHead_iff_exists w).mpr ⟨i, hop, hf, hclear⟩)
  refine ⟨i.withFields w, ?_⟩
  rw [decode_oneWord hop hf, oneWord_of_clear (by simpa using hclear)]

end Verdicts

/-! ## The assembler's `FROMINT` (30_encoding.md R90) -/

/-- The words of `FROMINT rd, n`. -/
theorem encode_fromintOfInt (rd : Reg) {n : Int} (hn : n.natAbs ≤ 2 ^ 63 - 1) :
    (fromintOfInt rd n).map encode =
      some [packWord 0x11 rd.val 0 0 0, BitVec.ofNat 32 ((decide (n < 0)).toNat * 2 ^ 31 + n.natAbs / 2 ^ 32),
        BitVec.ofNat 32 (n.natAbs % 2 ^ 32)] := by
  rw [fromintOfInt, if_pos hn]
  rfl

end Sys2Proof

namespace Sys2Proof.Proofs

open Sys2Proof.Machine Sys2Proof.Claims

/-- Settles O1: a command's word has its opcode and its fields, and its literal words the rest of its operands. -/
theorem decodeOfEncodeIsTheCommand : Obligations.DecodeOfEncodeIsTheCommand :=
  fun _ _ hi => decode_encode hi

/-- Settles O2: the fields of a word whose reserved bits are 0 hold every bit of it. -/
theorem encodeOfDecodeIsTheWords : Obligations.EncodeOfDecodeIsTheWords :=
  fun _ _ _ h => encode_decode h

/-- Settles O5. -/
theorem illegalExactlyWhereNoRowMatches : Obligations.IllegalExactlyWhereNoRowMatches :=
  fun _ _ => decode_illegal_iff

/-- Settles O6. -/
theorem opcodeTellsTheLength : Obligations.OpcodeTellsTheLength := by
  intro w
  refine ⟨fun h rest => decode_illegal_iff.mpr h, fun h => ⟨fun word1 word2 rest => decode_literalHead h word1 word2,
    fun rest hlen => ?_⟩, fun h hlit rest => decode_legal_not_literal h hlit⟩
  have htrunc := decode_literalHead_short h hlen
  exact ⟨htrunc, fun s hh hstream => runEnd_truncated hh (hstream ▸ htrunc)⟩

/-- Settles O3: the examples are fixed words, and the decoder evaluates on them. -/
theorem workedEncodingsDecode : Obligations.WorkedEncodingsDecode := by
  unfold Obligations.WorkedEncodingsDecode
  decide

/-- Settles O4: the lines of text by evaluation, `FROMINT` on every integer by the sizes of its three words. -/
theorem assemblerAssignsTheFields : Obligations.AssemblerAssignsTheFields := by
  refine ⟨by decide, fun rd n hn => ⟨_, _, _, encode_fromintOfInt rd hn, ?_, ?_, ?_⟩⟩
  · rw [packWord_toNat ⟨by decide, rd.isLt, by decide, by decide⟩]
    omega
  · have hsign : (decide (n < 0)).toNat = if n < 0 then 1 else 0 := by split <;> simp [*]
    rw [BitVec.toNat_ofNat, ← hsign]
    have := (decide (n < 0)).toNat_le
    omega
  · rw [BitVec.toNat_ofNat]
    omega

end Sys2Proof.Proofs
end

section
/-!
PROOFS. The statements of the family 40_construction.md: what `FROMINT` makes of a safe-range integer `n` is the value
whose unsigned reading is `n` modulo `2^64` (`holdsInt_iff`) and whose signed reading is `n`; the laws of R114 follow
from the laws of the engines on the readings.
-/

namespace Sys2Proof.Claims

open Sys2Proof.Machine

/-! ## The readings of a constructed integer (40_construction.md R112) -/

/-- A safe-range integer given as sign and magnitude is the integer modulo `2^64`. -/
theorem Safe.u64_valueOfSafeInt {n : Int} (hn : Safe n) :
    ((valueOfSafeInt (decide (n < 0)) n.natAbs).u64 : Int) = n % 2 ^ 64 := by
  have hsigned : (if decide (n < 0) then -(n.natAbs : Int) else n.natAbs) = n := by
    simp only [decide_eq_true_eq]
    split <;> omega
  rw [valueOfSafeInt_u64 hn, hsigned]

/-- The unsigned reading alone says whether a register holds a safe-range integer. -/
theorem holdsInt_iff {s : State} {r : Reg} {n : Int} (hn : Safe n) :
    HoldsInt s r n ↔ ((s.readReg r).u64 : Int) = n % 2 ^ 64 := by
  rw [← hn.u64_valueOfSafeInt, Int.natCast_inj]
  exact ⟨congrArg Value.u64, Value.ext_u64⟩

section Held

variable {s : State} {r : Reg} {n : Int} (hn : Safe n) (h : HoldsInt s r n)
include hn h

theorem HoldsInt.u64_of_nonneg (hpos : 0 ≤ n) : ((s.readReg r).u64 : Int) = n := by
  rw [(holdsInt_iff hn).mp h]
  unfold Safe at hn
  omega

theorem HoldsInt.s64 : (s.readReg r).s64 = n := by
  have hu := (holdsInt_iff hn).mp h
  unfold Safe at hn
  rw [Value.s64_eq]
  split <;> omega

end Held

/-! ## Commands on two constructed integers (40_construction.md R114) -/

section Pair

variable {s : State} {ra rb : Reg} {a b : Int} (ha : Safe a) (hb : Safe b) (hra : HoldsInt s ra a)
  (hrb : HoldsInt s rb b)
include ha hb hra hrb

theorem HoldsInt.u64_addValue : ((addValue (s.readReg ra) (s.readReg rb)).u64 : Int) = (a + b) % 2 ^ 64 := by
  rw [addValue_u64, Int.natCast_emod, Int.natCast_add, (holdsInt_iff ha).mp hra, (holdsInt_iff hb).mp hrb]
  exact (Int.add_emod ..).symm

theorem HoldsInt.u64_subValue : ((subValue (s.readReg ra) (s.readReg rb)).u64 : Int) = (a - b) % 2 ^ 64 := by
  rw [subValue_u64, (holdsInt_iff ha).mp hra, (holdsInt_iff hb).mp hrb]
  exact (Int.sub_emod ..).symm

theorem HoldsInt.ucmp_of_nonneg (hza : 0 ≤ a) (hzb : 0 ≤ b) :
    ucmp (s.readReg ra) (s.readReg rb) = if a < b then ordLT else if a = b then ordEQ else ordGT := by
  rw [ucmp_eq, ← hra.u64_of_nonneg ha hza, ← hrb.u64_of_nonneg hb hzb]
  simp only [Int.ofNat_lt, Int.natCast_inj]

theorem HoldsInt.scmp :
    scmp (s.readReg ra) (s.readReg rb) = if a < b then ordLT else if a = b then ordEQ else ordGT := by
  rw [scmp_eq, hra.s64 ha, hrb.s64 hb]

end Pair

/-! ## The signed numeral in `OUT` -/

theorem sstrOf_eq_signedNumeral (v : Value) : sstrOf v = signedNumeral v.s64 := sstrOf_eq v

theorem outIs_setOut (s : State) {bytes : List Byte} (h : bytes.length ≤ 64) : OutIs (s.setOut bytes) bytes :=
  ⟨s.outlen_setOut h, s.hostOut_setOut bytes⟩

end Sys2Proof.Claims

namespace Sys2Proof.Proofs

open Sys2Proof.Machine Sys2Proof.Claims

/-- Settles O27: the two limbs are the quotient and the remainder by `2^32` of the magnitude, or of `2^64` minus it. -/
theorem fromintInTheSafeRange : Obligations.FromintInTheSafeRange := by
  intro rd sign mag s hmag
  have hu := valueOfSafeInt_u64 (sign := sign) hmag
  refine ⟨_, execFromint_safe s hmag, ?_, ?_, onlyReg_writeReg ..⟩ <;> rintro rfl <;>
    rw [State.readReg_writeReg_same, Value.high_toNat, Value.low_toNat]
  · rw [if_neg Bool.false_ne_true] at hu
    omega
  · rw [if_pos rfl] at hu
    omega

/-- Settles O28. -/
theorem fromintIsTheIntegerModulo : Obligations.FromintIsTheIntegerModulo := by
  intro rd n s hn
  have hread := s.readReg_writeReg_same rd (valueOfSafeInt (decide (n < 0)) n.natAbs)
  refine ⟨_, execFromint_safe s hn, ?_, hread⟩
  rw [hread, hn.u64_valueOfSafeInt]

/-- Settles O30: `ADD` and `SUB` by the unsigned readings, `SSTR` and `SCMP` by the signed ones, which are the
integers themselves, as the unsigned ones of non-negative integers are. -/
theorem constructionLaws : Obligations.ConstructionLaws := by
  intro s rd ra rb a b ha hb hra hrb
  refine ⟨⟨_, rfl, fun hsum => ?_⟩, ⟨_, rfl, fun hdiff => ?_⟩, ⟨_, rfl, ?_⟩,
    fun hza hzb => ⟨_, rfl, hra.ucmp_of_nonneg ha hb hrb hza hzb⟩, ⟨_, rfl, hra.scmp ha hb hrb⟩⟩
  · rw [holdsInt_iff hsum, State.readReg_writeReg_same, hra.u64_addValue ha hb hrb]
  · rw [holdsInt_iff hdiff, State.readReg_writeReg_same, hra.u64_subValue ha hb hrb]
  · rw [← hra.s64 ha, ← sstrOf_eq_signedNumeral]
    exact outIs_setOut s (Nat.le_trans (sstrOf_length_le _) (by decide))

/-- Settles O59. -/
theorem sumOfConstructedIntegersIsModular : Obligations.SumOfConstructedIntegersIsModular := by
  intro s rd ra rb a b ha hb hra hrb
  refine ⟨⟨_, rfl, ?_, onlyReg_writeReg ..⟩, ⟨_, rfl, ?_, onlyReg_writeReg ..⟩⟩
  · rw [State.readReg_writeReg_same, hra.u64_addValue ha hb hrb]
  · rw [State.readReg_writeReg_same, hra.u64_subValue ha hb hrb]

/-- Settles O26. -/
theorem fromlimbsStoresTheWordsVerbatim : Obligations.FromlimbsStoresTheWordsVerbatim :=
  fun rd high low s => ⟨_, rfl, s.readReg_writeReg_same rd ⟨high, low⟩, onlyReg_writeReg s rd ⟨high, low⟩⟩

/-- Settles O29: the draw goes on from a write of `v[rd]` and moves the model's counter only. -/
theorem fromintOutsideTheSafeRangeCompletes : Obligations.FromintOutsideTheSafeRangeCompletes := by
  intro rd sign mag s hmag
  obtain ⟨hregs, hord, hstatus, hcursor, hout, hbytes, hinputs, hdraws⟩ := onlyReg_writeReg s rd s.freeValue
  exact ⟨_, execFromint_free s (Nat.not_le_of_gt hmag), s.readReg_writeReg_same rd s.freeValue,
    congrArg (· + 1) hdraws, hregs, hord, hstatus, hcursor, hout, hbytes, hinputs⟩

end Sys2Proof.Proofs
end

section
/-!
PROOFS. The statements of the family 41_bitwise.md: each bit of what `AND`, `OR`, `XOR` and `NOT` write is that
operation on the same bit of the sources (`testBit_andValue` and the three after it), so a law of R125 is that law of
Bool at each bit.
-/

namespace Sys2Proof.Machine

open Sys2Proof.Claims

/-! ## The limbs of a complement (41_bitwise.md R124) -/

theorem M32_sub (x : Limb) : M32 - x = ~~~x := BitVec.allOnes_sub_eq_not x

theorem M32_sub_toNat (x : Limb) : (M32 - x).toNat = 0xFFFFFFFF - x.toNat := by
  rw [M32_sub, BitVec.toNat_not]

/-! ## The bits of the results (41_bitwise.md R121 to R124) -/

section Bits

variable (a b : Value) (k : Nat)

@[simp] theorem testBit_andValue : (andValue a b).u64.testBit k = (a.u64.testBit k && b.u64.testBit k) := by
  simp only [Value.testBit_u64, andValue, BitVec.getLsbD_and]
  split <;> rfl

@[simp] theorem testBit_orValue : (orValue a b).u64.testBit k = (a.u64.testBit k || b.u64.testBit k) := by
  simp only [Value.testBit_u64, orValue, BitVec.getLsbD_or]
  split <;> rfl

@[simp] theorem testBit_xorValue : (xorValue a b).u64.testBit k = (a.u64.testBit k ^^ b.u64.testBit k) := by
  simp only [Value.testBit_u64, xorValue, BitVec.getLsbD_xor]
  split <;> rfl

theorem testBit_notValue (hk : k < 64) : (notValue a).u64.testBit k = !a.u64.testBit k := by
  simp only [Value.testBit_u64, notValue, M32_sub, BitVec.getLsbD_not]
  split
  next hlow => rw [decide_eq_true hlow, Bool.true_and]
  next => rw [decide_eq_true (by omega), Bool.true_and]

end Bits

/-! ## Boolean algebra on whole values (41_bitwise.md R125) -/

section Laws

variable (a b c d : Value)

theorem andValue_orValue_self : andValue a (orValue a b) = a :=
  Value.ext_testBit fun k _ => by
    rw [testBit_andValue, testBit_orValue]
    exact inf_sup_self

theorem orValue_andValue_self : orValue a (andValue a b) = a :=
  Value.ext_testBit fun k _ => by
    rw [testBit_orValue, testBit_andValue]
    exact sup_inf_self

theorem andValue_orValue_distrib : andValue a (orValue b c) = orValue (andValue a b) (andValue a c) :=
  Value.ext_testBit fun k _ => by simp only [testBit_andValue, testBit_orValue, Bool.and_or_distrib_left]

theorem orValue_andValue_distrib : orValue a (andValue b c) = andValue (orValue a b) (orValue a c) :=
  Value.ext_testBit fun k _ => by simp only [testBit_andValue, testBit_orValue, Bool.or_and_distrib_left]

theorem andValue_xorValue_distrib_left : andValue a (xorValue b c) = xorValue (andValue a b) (andValue a c) :=
  Value.ext_testBit fun k _ => by simp only [testBit_andValue, testBit_xorValue, Bool.and_xor_distrib_left]

theorem andValue_xorValue_distrib_right : andValue (xorValue a b) c = xorValue (andValue a c) (andValue b c) :=
  Value.ext_testBit fun k _ => by simp only [testBit_andValue, testBit_xorValue, Bool.and_xor_distrib_right]

theorem xorValue_assoc : xorValue (xorValue a b) c = xorValue a (xorValue b c) :=
  Value.ext_testBit fun k _ => by simp only [testBit_xorValue, Bool.xor_assoc]

theorem notValue_andValue : notValue (andValue a b) = orValue (notValue a) (notValue b) :=
  Value.ext_testBit fun k hk => by
    simp only [testBit_notValue _ _ hk, testBit_andValue, testBit_orValue, Bool.not_and]

theorem notValue_orValue : notValue (orValue a b) = andValue (notValue a) (notValue b) :=
  Value.ext_testBit fun k hk => by
    simp only [testBit_notValue _ _ hk, testBit_andValue, testBit_orValue, Bool.not_or]

/-- The product of two sums, `AND` over `XOR` as in the ring of two elements. -/
theorem andValue_xorValue_xorValue :
    andValue (xorValue a b) (xorValue c d) =
      xorValue (xorValue (xorValue (andValue a c) (andValue a d)) (andValue b c)) (andValue b d) := by
  rw [andValue_xorValue_distrib_right, andValue_xorValue_distrib_left, andValue_xorValue_distrib_left,
    ← xorValue_assoc]

end Laws

/-! ## A command that writes one value -/

theorem next_writeReg (s : State) (rd : Reg) (v : Value) :
    ∃ t, (.next (s.writeReg rd v) : Result) = .next t ∧ t.readReg rd = v ∧ OnlyReg rd s t :=
  ⟨_, rfl, s.readReg_writeReg_same rd v, onlyReg_writeReg s rd v⟩

end Sys2Proof.Machine

namespace Sys2Proof.Proofs

open Sys2Proof.Machine Sys2Proof.Claims

/-- Settles O32. -/
theorem notInvertsEveryBit : Obligations.NotInvertsEveryBit := by
  intro rd ra s
  refine ⟨_, rfl, ?_⟩
  rw [State.readReg_writeReg_same]
  exact ⟨M32_sub_toNat _, M32_sub_toNat _, fun _ hk => testBit_notValue _ _ hk, onlyReg_writeReg ..⟩

/-- Settles O33. -/
theorem booleanAlgebraLaws : Obligations.BooleanAlgebraLaws :=
  ⟨fun _ _ _ _ => ⟨rfl, rfl, rfl, rfl⟩, fun a b c d =>
    ⟨andValue_orValue_self a b, orValue_andValue_self a b, andValue_orValue_distrib a b c,
      andValue_xorValue_distrib_left a b c, orValue_andValue_distrib a b c, notValue_andValue a b,
      notValue_orValue a b, andValue_xorValue_xorValue a b c d⟩⟩

/-- Settles O31: the three commands write the value of a function of the sources, which acts limb by limb. -/
theorem andOrXorActLimbByLimb : Obligations.AndOrXorActLimbByLimb :=
  fun rd ra rb s => ⟨next_writeReg s rd (andValue (s.readReg ra) (s.readReg rb)),
    next_writeReg s rd (orValue (s.readReg ra) (s.readReg rb)),
    next_writeReg s rd (xorValue (s.readReg ra) (s.readReg rb))⟩

end Sys2Proof.Proofs
end

section
/-!
PROOFS. The statements of the family 42_shift_rotate.md: from the bits and the integers of what the four functions of
`Laws/ShiftRotate` give to the relations between them, and to the commands that write their values.
-/

namespace Sys2Proof.Machine

open Sys2Proof.Claims

variable (v : Value) (n : Nat)

/-! ## The rotates and each other (42_shift_rotate.md R139, R144, R147) -/

/-- `ROTL` bit by bit, by where the bit goes to. -/
theorem testBit_rotlValue_add (k : Nat) (hk : k < 64) :
    (rotlValue v n).u64.testBit ((k + n) % 64) = v.u64.testBit k := by
  rw [testBit_rotlValue _ _ _ (Nat.mod_lt _ (by decide))]
  congr 1
  omega

theorem rotrValue_rotlValue : rotrValue (rotlValue v n) n = v :=
  Value.ext_testBit fun k hk => by rw [testBit_rotrValue _ _ _ hk, testBit_rotlValue_add _ _ _ hk]

theorem rotlValue_rotrValue : rotlValue (rotrValue v n) n = v :=
  Value.ext_testBit fun k hk => by
    rw [testBit_rotlValue _ _ _ hk, testBit_rotrValue _ _ _ (Nat.mod_lt _ (by decide))]
    congr 1
    omega

/-! ## The relations between the four (42_shift_rotate.md R148) -/

/-- The form of `rotrValue_u64` that R144 draws: without a rotation there is no part that re-enters at the top. -/
theorem rotrValue_u64_eq_ite :
    (rotrValue v n).u64 =
      if n % 64 = 0 then v.u64 else v.u64 / 2 ^ (n % 64) + v.u64 * 2 ^ (64 - n % 64) % 2 ^ 64 := by
  rw [rotrValue_u64]
  split
  next h0 => rw [h0, Nat.pow_zero, Nat.div_one, Nat.sub_zero, Nat.mul_mod_left, Nat.add_zero]
  next => rfl

/-- Bit `k` of a rotation comes from below where `n ≤ k`, and from the top of the value where `k < n`. -/
theorem rotlValue_eq_orValue (hpos : 0 < n) (hn : n < 64) :
    rotlValue v n = orValue (shlValue v n) (shrzValue v (64 - n)) :=
  Value.ext_testBit fun k hk => by
    rw [testBit_rotlValue _ _ _ hk, testBit_orValue, testBit_shlValue _ _ _ hk, testBit_shrzValue _ _ _ hk,
      Nat.mod_eq_of_lt hn]
    by_cases hle : n ≤ k
    · rw [decide_eq_true hle, decide_eq_false (by omega), Bool.true_and, Bool.false_and, Bool.or_false,
        show (k + (64 - n)) % 64 = k - n by omega]
    · rw [decide_eq_false hle, decide_eq_true (by omega), Bool.true_and, Bool.false_and, Bool.false_or,
        Nat.mod_eq_of_lt (by omega)]

theorem shrzValue_shlValue_u64 : (shrzValue (shlValue v n) n).u64 = v.u64 % 2 ^ (64 - min n 64) := by
  rw [shrzValue_u64, shlValue_u64]
  rcases Nat.le_total n 64 with hn | hn
  · have hsplit : 2 ^ 64 = 2 ^ n * 2 ^ (64 - n) := by rw [← Nat.pow_add, Nat.add_sub_cancel' hn]
    rw [Nat.min_eq_left hn, hsplit, Nat.mod_mul_right_div_self, Nat.mul_div_cancel _ (Nat.two_pow_pos n)]
  · have hdvd : 2 ^ 64 ∣ v.u64 * 2 ^ n := Nat.dvd_mul_left_of_dvd (Nat.pow_dvd_pow 2 hn) _
    rw [Nat.min_eq_right hn, Nat.mod_eq_zero_of_dvd hdvd, Nat.zero_div, Nat.sub_self, Nat.pow_zero, Nat.mod_one]

theorem shlValue_64 : shlValue v 64 = ⟨0, 0⟩ :=
  Value.ext_u64 ((shlValue_u64 v 64).trans (Nat.mul_mod_left _ _))

theorem rotlValue_64 : rotlValue v 64 = v := rfl

/-! ## A command that writes a value known bit by bit -/

theorem next_writeReg_bits (s : State) (rd : Reg) {v : Value} {f : Nat → Bool}
    (hbits : ∀ k, k < 64 → v.u64.testBit k = f k) :
    ∃ t, (.next (s.writeReg rd v) : Result) = .next t ∧ (∀ k, k < 64 → bit (t.readReg rd) k = f k) ∧
      OnlyReg rd s t := by
  obtain ⟨t, hnext, hread, hframe⟩ := next_writeReg s rd v
  refine ⟨t, hnext, ?_, hframe⟩
  rw [hread]
  exact hbits

end Sys2Proof.Machine

namespace Sys2Proof.Proofs

open Sys2Proof.Machine Sys2Proof.Claims

/-- Settles O34. -/
theorem shlMovesBitsUp : Obligations.ShlMovesBitsUp :=
  fun rd ra n s => next_writeReg_bits s rd (testBit_shlValue (s.readReg ra) n)

/-- Settles O35. -/
theorem shrzMovesBitsDown : Obligations.ShrzMovesBitsDown :=
  fun rd ra n s => next_writeReg_bits s rd (testBit_shrzValue (s.readReg ra) n)

/-- Settles O36. -/
theorem rotlMovesBitsAroundUp : Obligations.RotlMovesBitsAroundUp := by
  intro rd ra n s
  refine ⟨_, rfl, ?_, onlyReg_writeReg ..⟩
  rw [State.readReg_writeReg_same]
  exact testBit_rotlValue_add _ n

/-- Settles O37. -/
theorem rotrMovesBitsAroundDown : Obligations.RotrMovesBitsAroundDown :=
  fun rd ra n s => next_writeReg_bits s rd (testBit_rotrValue (s.readReg ra) n)

/-- Settles O38. -/
theorem shiftsAndRotatesAsIntegers : Obligations.ShiftsAndRotatesAsIntegers :=
  ⟨fun _ _ _ _ => ⟨rfl, rfl, rfl, rfl⟩, fun v n =>
    ⟨shlValue_u64 v n, shrzValue_u64 v n, rotlValue_u64 v n, rotrValue_u64_eq_ite v n,
      rotlValue_eq_rotrValue v n, rotlValue_eq_orValue v n, shrzValue_shlValue_u64 v n, shlValue_64 v,
      rotlValue_64 v⟩⟩

/-- Settles O39: the second rotate reads what the first one wrote. -/
theorem rotatesUndoEachOther : Obligations.RotatesUndoEachOther := by
  intro r1 r2 ra n s
  refine ⟨⟨_, _, rfl, rfl, ?_⟩, ⟨_, _, rfl, rfl, ?_⟩⟩
  · rw [State.readReg_writeReg_same, State.readReg_writeReg_same]
    exact rotlValue_rotrValue _ n
  · rw [State.readReg_writeReg_same, State.readReg_writeReg_same]
    exact rotrValue_rotlValue _ n

end Sys2Proof.Proofs
end

section
/-!
PROOFS. The statements of the family 43_arithmetic.md: the two limbs of a sum and of a difference, by the exact limb
adder and subtractor, and the whole values by `addValue_u64` and `subValue_u64`.
-/

namespace Sys2Proof.Machine

variable (a b : Value)

/-! ## The limbs of a sum (43_arithmetic.md R151) -/

theorem addCarry_carry_of_no_carry_in (x y : Limb) :
    (addCarry x y false).2.toNat = if x.toNat + y.toNat > 0xFFFFFFFF then 1 else 0 :=
  Bool.cond_decide (x.toNat + y.toNat > 0xFFFFFFFF) 1 0

theorem addValue_low_toNat : (addValue a b).low.toNat = (a.low.toNat + b.low.toNat) % 2 ^ 32 :=
  (addCarry_spec a.low b.low false).1

theorem addValue_high_toNat :
    (addValue a b).high.toNat =
      (a.high.toNat + b.high.toNat + if a.low.toNat + b.low.toNat > 0xFFFFFFFF then 1 else 0) % 2 ^ 32 := by
  rw [← addCarry_carry_of_no_carry_in]
  exact (addCarry_spec a.high b.high _).1

/-! ## The limbs of a difference (43_arithmetic.md R153) -/

theorem subBorrow_borrow_of_no_borrow_in (x y : Limb) :
    ((subBorrow x y false).2.toNat : Int) = if x.toNat < y.toNat then 1 else 0 := by
  rw [(subBorrow_spec x y false).2]
  congr 1
  simp only [Bool.toNat_false, eq_iff_iff]
  omega

theorem subValue_low_toNat : ((subValue a b).low.toNat : Int) = ((a.low.toNat : Int) - b.low.toNat) % 2 ^ 32 := by
  have hdiff := (subBorrow_spec a.low b.low false).1
  rwa [Bool.toNat_false, Int.natCast_zero, Int.sub_zero] at hdiff

theorem subValue_high_toNat :
    ((subValue a b).high.toNat : Int) =
      ((a.high.toNat : Int) - b.high.toNat - if a.low.toNat < b.low.toNat then 1 else 0) % 2 ^ 32 := by
  rw [← subBorrow_borrow_of_no_borrow_in]
  exact (subBorrow_spec a.high b.high _).1

end Sys2Proof.Machine

namespace Sys2Proof.Proofs

open Sys2Proof.Machine Sys2Proof.Claims

/-- Settles O40. -/
theorem addCarriesIntoTheHighLimb : Obligations.AddCarriesIntoTheHighLimb := by
  intro rd ra rb s
  refine ⟨_, rfl, ?_⟩
  rw [State.readReg_writeReg_same]
  exact ⟨addValue_low_toNat .., addValue_high_toNat .., onlyReg_writeReg ..⟩

/-- Settles O41. -/
theorem subBorrowsFromTheHighLimb : Obligations.SubBorrowsFromTheHighLimb := by
  intro rd ra rb s
  refine ⟨_, rfl, ?_⟩
  rw [State.readReg_writeReg_same]
  exact ⟨subValue_low_toNat .., subValue_high_toNat .., onlyReg_writeReg ..⟩

/-- Settles O42: both sources are read before `v[rd]` is written, so the registers may coincide. -/
theorem addAndSubAreModularArithmetic : Obligations.AddAndSubAreModularArithmetic := by
  intro rd ra rb s
  refine ⟨⟨_, rfl, ?_, onlyReg_writeReg ..⟩, ⟨_, rfl, ?_, onlyReg_writeReg ..⟩⟩
  · rw [State.readReg_writeReg_same, addValue_u64]
  · rw [State.readReg_writeReg_same, subValue_u64]

end Sys2Proof.Proofs
end

section
/-!
PROOFS. The statements of the family 44_comparison.md: each of the two orderings compares a reading of its sources
(`ucmp_orders`, `scmp_orders`), and an ordering that compares a reading is a total order of the readings.
-/

namespace Sys2Proof

/-! ## The readings and the limbs (10_state.md R20, R21) -/

theorem Value.u64_injective : Function.Injective Value.u64 := fun _ _ => Value.ext_u64

theorem Value.s64_injective : Function.Injective Value.s64 := fun _ _ => Value.ext_s64

/-- The unsigned readings are in the lexicographic order of the limbs. -/
theorem Value.u64_lt_iff_lex (a b : Value) :
    a.u64 < b.u64 ↔ a.high.toNat < b.high.toNat ∨ a.high.toNat = b.high.toNat ∧ a.low.toNat < b.low.toNat := by
  have := a.low.isLt
  have := b.low.isLt
  unfold Value.u64
  omega

theorem Value.high_and_signMask_eq_zero_iff (v : Value) : v.high &&& 0x80000000 = 0 ↔ v.signBit = false := by
  rw [v.high_and_signMask]
  cases v.signBit <;> decide

theorem Value.high_and_signMask_ne_zero_iff (v : Value) : v.high &&& 0x80000000 ≠ 0 ↔ v.signBit = true := by
  rw [Ne, v.high_and_signMask_eq_zero_iff, Bool.not_eq_false]

theorem Value.high_and_signMask_eq_iff (a b : Value) :
    a.high &&& 0x80000000 = b.high &&& 0x80000000 ↔ a.signBit = b.signBit := by
  rw [a.high_and_signMask, b.high_and_signMask]
  cases a.signBit <;> cases b.signBit <;> decide

namespace Machine

open Sys2Proof.Claims

theorem onlyOrd_setOrd (s : State) (o : BitVec 2) : OnlyOrd s (s.setOrd o) :=
  ⟨fun _ => rfl, ⟨rfl, rfl⟩, ⟨rfl, rfl⟩, ⟨rfl, fun _ => rfl⟩, fun _ => rfl, ⟨rfl, rfl⟩, rfl⟩

/-! ## The branches of `scmp` (44_comparison.md R163) -/

theorem scmp_of_signs_clear_set {a b : Value} (ha : a.signBit = false) (hb : b.signBit = true) :
    scmp a b = ordGT := by
  rw [scmp, ha, hb]
  rfl

theorem scmp_of_signs_set_clear {a b : Value} (ha : a.signBit = true) (hb : b.signBit = false) :
    scmp a b = ordLT := by
  rw [scmp, ha, hb]
  rfl

theorem scmp_of_signs_eq {a b : Value} (h : a.signBit = b.signBit) : scmp a b = ucmp a b :=
  if_neg (not_not_intro h)

/-! ## Orderings that compare a reading (44_comparison.md R160, R165) -/

section Reading

variable {α : Type} [LinearOrder α]

/-- `cmp` is the three-way ordering of the readings `r` of its two values. -/
def Orders (cmp : Value → Value → BitVec 2) (r : Value → α) : Prop :=
  ∀ a b, cmp a b = if r a < r b then ordLT else if r a = r b then ordEQ else ordGT

variable {cmp : Value → Value → BitVec 2} {r : Value → α} (h : Orders cmp r) (a b : Value)
include h

theorem Orders.less_iff : cmp a b = ordLT ↔ r a < r b := by
  rw [h a b]
  split
  next hlt => exact iff_of_true rfl hlt
  next hnot => exact iff_of_false (by split <;> decide) hnot

theorem Orders.equal_iff : cmp a b = ordEQ ↔ r a = r b := by
  rw [h a b]
  split
  next hlt => exact iff_of_false (by decide) hlt.ne
  split
  next heq => exact iff_of_true rfl heq
  next hne => exact iff_of_false (by decide) hne

theorem Orders.greater_iff : cmp a b = ordGT ↔ r b < r a := by
  rw [h a b]
  split
  next hlt => exact iff_of_false (by decide) hlt.not_gt
  next hnot =>
    split
    next heq => exact iff_of_false (by decide) heq.symm.not_lt
    next hne => exact iff_of_true rfl ((lt_or_gt_of_ne hne).resolve_left hnot)

/-- Reflexive, `EQ` only for the same value, antisymmetric, transitive: each from the order of the readings. -/
theorem Orders.isTotalOrder (hinj : Function.Injective r) (c : Value) :
    cmp a a = ordEQ ∧ (cmp a b = ordEQ → a = b) ∧ (cmp a b = ordLT ↔ cmp b a = ordGT) ∧
      (cmp a b = ordLT → cmp b c = ordLT → cmp a c = ordLT) :=
  ⟨(h.equal_iff a a).mpr rfl, fun heq => hinj ((h.equal_iff a b).mp heq),
    (h.less_iff a b).trans (h.greater_iff b a).symm,
    fun hab hbc => (h.less_iff a c).mpr (((h.less_iff a b).mp hab).trans ((h.less_iff b c).mp hbc))⟩

end Reading

theorem ucmp_orders : Orders ucmp Value.u64 := ucmp_eq

theorem scmp_orders : Orders scmp Value.s64 := scmp_eq

end Machine

end Sys2Proof

namespace Sys2Proof.Proofs

open Sys2Proof.Machine Sys2Proof.Claims

/-- Settles O43: the order of the unsigned readings is the lexicographic order of the limbs. -/
theorem ucmpComparesLexicographically : Obligations.UcmpComparesLexicographically := by
  intro ra rb s
  refine ⟨_, rfl, ?_, ?_, ?_, onlyOrd_setOrd ..⟩
  · exact (ucmp_orders.less_iff ..).trans (Value.u64_lt_iff_lex ..)
  · rw [@eq_comm Nat (s.readReg ra).high.toNat]
    exact (ucmp_orders.greater_iff ..).trans (Value.u64_lt_iff_lex ..)
  · exact (ucmp_orders.equal_iff ..).trans Value.u64_injective.eq_iff

/-- Settles O44: the mask of R163 tests the sign bit. -/
theorem scmpTestsTheSignsFirst : Obligations.ScmpTestsTheSignsFirst := by
  intro ra rb s
  simp only [Value.high_and_signMask_eq_zero_iff, Value.high_and_signMask_ne_zero_iff,
    Value.high_and_signMask_eq_iff]
  exact ⟨_, rfl, scmp_of_signs_clear_set, scmp_of_signs_set_clear,
    fun hsigns => ⟨_, rfl, scmp_of_signs_eq hsigns⟩, onlyOrd_setOrd ..⟩

/-- Settles O45. -/
theorem comparesOrderTheReadings : Obligations.ComparesOrderTheReadings :=
  fun _ _ _ => ⟨⟨_, rfl, ucmp_eq ..⟩, ⟨_, rfl, scmp_eq ..⟩⟩

/-- Settles O46. -/
theorem orderingsAreTotalOrders : Obligations.OrderingsAreTotalOrders := by
  refine ⟨fun ra rb s => ⟨⟨_, rfl, rfl, onlyOrd_setOrd ..⟩, ⟨_, rfl, rfl, onlyOrd_setOrd ..⟩⟩, ?_⟩
  rintro cmp (rfl | rfl) a b c
  · exact ⟨ucmp_code a b, ucmp_orders.isTotalOrder a b Value.u64_injective c⟩
  · exact ⟨scmp_code a b, scmp_orders.isTotalOrder a b Value.s64_injective c⟩

end Sys2Proof.Proofs
end

section
/-!
PROOFS. The statements of the family 45_string_conversion.md: the strings as the statements write them (the numeral, the
hex digits of the nibbles, the bits), and the two branches of one step of the digit loop.
-/

namespace Sys2Proof.Machine

open Sys2Proof.Claims

/-! ## A command that renders bytes -/

theorem next_setOut (s : State) {bytes : List Byte} (h : bytes.length ≤ 64) :
    ∃ t, (.next (s.setOut bytes) : Result) = .next t ∧ OutIs t bytes ∧ OnlyOut s t :=
  ⟨_, rfl, outIs_setOut s h, onlyOut_setOut s bytes⟩

theorem State.hostOut_setOut_of_lt (s : State) {bytes : List Byte} {i : Fin 64} (hi : i.val < bytes.length) :
    (s.setOut bytes).hostOut i = bytes[i.val] := by
  rw [State.hostOut_setOut, List.getD_eq_getElem _ _ hi]

theorem State.hostOut_setOut_of_ge (s : State) {bytes : List Byte} {i : Fin 64} (hi : bytes.length ≤ i.val) :
    (s.setOut bytes).hostOut i = 0 := by
  rw [State.hostOut_setOut, List.getD_eq_default _ _ hi]

/-! ## The decimal strings (45_string_conversion.md R171, R172) -/

theorem ustrOf_eq_decimalNumeral (v : Value) : ustrOf v = decimalNumeral v.u64 := ustrOf_eq v

theorem ustrOf_length_pos (v : Value) : 1 ≤ (ustrOf v).length := by
  rw [ustrOf_eq]
  exact numeral_length_pos _

/-- 20 digits hold every 64-bit magnitude, so 19 divisions leave the last of them. -/
theorem ustrLoop_eq_ustrOf (v : Value) {fuel : Nat} (hf : 19 ≤ fuel) : ustrLoop fuel v.high v.low [] = ustrOf v := by
  have hfits : v.u64 < 10 ^ (fuel + 1) :=
    calc v.u64 < 2 ^ 64 := v.u64_lt
      _ ≤ 10 ^ 20 := by decide
      _ ≤ 10 ^ (fuel + 1) := Nat.pow_le_pow_right (by decide) (by omega)
  rw [ustrLoop_eq fuel v.high v.low [] hfits, List.append_nil, ustrOf_eq]

/-- The limbs after one division by 10: the remainder of `high` comes before `low` in the second quotient. -/
def divTen (v : Value) : Value :=
  ⟨BitVec.ofNat 32 (v.high.toNat / 10), BitVec.ofNat 32 ((v.high.toNat % 10 * 2 ^ 32 + v.low.toNat) / 10)⟩

theorem divTen_u64 (v : Value) : (divTen v).u64 = v.u64 / 10 := (digitStep v.high v.low).1

theorem divTen_high_toNat (v : Value) : (divTen v).high.toNat = v.high.toNat / 10 := by
  have := v.high.isLt
  exact toNat_ofNat32 (by omega)

theorem divTen_low_toNat (v : Value) :
    (divTen v).low.toNat = (v.high.toNat % 10 * 2 ^ 32 + v.low.toNat) / 10 := by
  have := v.low.isLt
  exact toNat_ofNat32 (by omega)

section Step

variable {v : Value} (fuel : Nat) (str : List Byte)

theorem ustrLoop_of_lt (h : v.u64 < 10) : ustrLoop (fuel + 1) v.high v.low str = digitChar v.u64 :: str := by
  have hstop := (digitStop v.high v.low).mpr h
  have hlow : v.low.toNat = v.u64 := by rw [v.low_toNat]; omega
  rw [ustrLoop, if_pos hstop, hlow]

theorem ustrLoop_of_ge (h : 10 ≤ v.u64) :
    ustrLoop (fuel + 1) v.high v.low str =
      ustrLoop fuel (divTen v).high (divTen v).low (digitChar (v.u64 % 10) :: str) := by
  have hgo : ¬ (v.high = 0 ∧ v.low.toNat < 10) := mt (digitStop v.high v.low).mp (Nat.not_lt.mpr h)
  rw [← (digitStep v.high v.low).2, ustrLoop, if_neg hgo]
  rfl

end Step

/-! ## The hexadecimal string (45_string_conversion.md R176, R177) -/

theorem hexDigit_toNat {d : Nat} (hd : d < 16) :
    (hexDigit d).toNat = if d ≤ 9 then 0x30 + d else 0x61 + (d - 10) := by
  unfold hexDigit
  split <;> rw [BitVec.toNat_ofNat, Nat.mod_eq_of_lt (by omega)]

theorem hex8_eq (x : Limb) : hex8 x = (List.range 8).map fun i => hexDigit (x.toNat / 16 ^ (7 - i) % 16) := rfl

/-- A nibble of the 64-bit word is a nibble of one limb. -/
theorem nibble_u64 (v : Value) (k : Nat) :
    v.u64 / 16 ^ k % 16 = if k < 8 then v.low.toNat / 16 ^ k % 16 else v.high.toNat / 16 ^ (k - 8) % 16 := by
  have hpow : 2 ^ 32 = 16 ^ 8 := rfl
  split
  next hk =>
    have hlimb : 2 ^ 32 = 16 ^ k * 16 ^ (8 - k) := by rw [hpow, ← Nat.pow_add, Nat.add_sub_cancel' hk.le]
    have hdvd : 16 ∣ 16 ^ (8 - k) := Dvd.intro_left _ (Nat.pow_pred_mul (Nat.sub_pos_of_lt hk))
    rw [v.low_toNat, hlimb, Nat.mod_mul_right_div_self, Nat.mod_mod_of_dvd _ hdvd]
  next hk =>
    have hlimb : 16 ^ k = 2 ^ 32 * 16 ^ (k - 8) := by
      rw [hpow, ← Nat.pow_add, Nat.add_sub_cancel' (Nat.le_of_not_lt hk)]
    rw [v.high_toNat, hlimb, Nat.div_div_eq_div_mul]

/-- The hex string is the 16 nibbles of the 64-bit word read from nibble 15 down. -/
theorem hexOf_getElem (v : Value) (i : Nat) (hi : i < 16) :
    (hexOf v)[i]'(by rw [hexOf_length]; exact hi) = hexDigit (v.u64 / 16 ^ (15 - i) % 16) := by
  simp only [nibble_u64, hexOf, hex8_eq, List.getElem_append, List.length_map, List.length_range, List.getElem_map,
    List.getElem_range]
  by_cases hhigh : i < 8
  · rw [dif_pos hhigh, if_neg (by omega), show 15 - i - 8 = 7 - i by omega]
  · rw [dif_neg hhigh, if_pos (by omega), show 7 - (i - 8) = 15 - i by omega]

/-! ## The bit string and the bit list (45_string_conversion.md R178 to R180) -/

/-- The 64 bits, each rendered as a byte by `f`, in `OUT`. -/
theorem hostOut_setOut_valueBits (s : State) (v : Value) (f : Bool → Byte) (i : Fin 64) :
    (s.setOut ((valueBits v).map f)).hostOut i = f (bit v (63 - i.val)) := by
  have hi : i.val < ((valueBits v).map f).length := by
    rw [List.length_map, valueBits_length]
    exact i.isLt
  rw [s.hostOut_setOut_of_lt hi, List.getElem_map, valueBits_getElem v i.val i.isLt]
  rfl

theorem digitChar_bool (b : Bool) : digitChar b.toNat = if b then 0x31 else 0x30 := by
  cases b <;> rfl

theorem ofNat_bool (b : Bool) : (BitVec.ofNat 8 b.toNat : Byte) = if b then 0x01 else 0x00 := by
  cases b <;> rfl

end Sys2Proof.Machine

namespace Sys2Proof.Proofs

open Sys2Proof.Machine Sys2Proof.Claims

/-- Settles O47. -/
theorem ustrRendersTheUnsignedNumeral : Obligations.UstrRendersTheUnsignedNumeral := by
  intro ra s
  rw [← ustrOf_eq_decimalNumeral]
  exact next_setOut s (Nat.le_trans (ustrOf_length_le _) (by decide))

/-- Settles O48. -/
theorem sstrRendersTheSignedNumeral : Obligations.SstrRendersTheSignedNumeral := by
  intro ra s
  rw [← sstrOf_eq_signedNumeral]
  exact next_setOut s (Nat.le_trans (sstrOf_length_le _) (by decide))

/-- Settles O49: from 10 on, the loop goes on with `divTen v`. -/
theorem digitLoopAndNegation : Obligations.DigitLoopAndNegation := by
  refine ⟨fun fuel v str => ⟨ustrLoop_of_lt fuel str, fun h => ?_⟩, fun v _ => ustrLoop_eq_ustrOf v,
    fun v => ⟨ustrOf_length_pos v, ustrOf_length_le v, sstrOf_length_le v⟩, negateValue_u64, rfl, rfl⟩
  have hcombined : v.high.toNat % 10 * 2 ^ 32 + v.low.toNat ≤ 42949672959 := by
    have := v.low.isLt
    omega
  exact ⟨divTen v, _, ustrLoop_of_ge fuel str h, divTen_u64 v, rfl, divTen_high_toNat v, divTen_low_toNat v,
    (digitStep v.high v.low).2.symm, hcombined⟩

/-- Settles O50. -/
theorem hexRendersEveryNibble : Obligations.HexRendersEveryNibble := by
  intro ra s
  refine ⟨s.setOut (hexOf (s.readReg ra)), rfl, rfl, fun i hi => ?_, fun i hi => ?_, onlyOut_setOut ..⟩
  · rw [s.hostOut_setOut_of_lt (hi.trans_eq (hexOf_length _).symm), hexOf_getElem _ _ hi,
      hexDigit_toNat (Nat.mod_lt _ (by decide))]
  · exact s.hostOut_setOut_of_ge ((hexOf_length _).le.trans hi)

/-- Settles O51: both commands render the same bits, each bit as a byte of its own. -/
theorem bstrAndBitsRenderEveryBit : Obligations.BstrAndBitsRenderEveryBit := by
  intro ra s
  refine ⟨⟨_, rfl, ?_, fun i => ?_, onlyOut_setOut ..⟩, ⟨_, rfl, ?_, fun i => ?_, onlyOut_setOut ..⟩⟩
  · rw [s.outlen_setOut (bstrOf_length _).le, bstrOf_length]
  · rw [bstrOf, hostOut_setOut_valueBits, digitChar_bool]
  · rw [s.outlen_setOut (bitsOf_length _).le, bitsOf_length]
  · rw [bitsOf, hostOut_setOut_valueBits, ofNat_bool]

end Sys2Proof.Proofs
end

section
/-!
PROOFS. The statements of the family 46_byte_serialization.md: the 8 bytes of a field are those of the table of R57
(`valueBytes_eq_map_iff`), so what `ENC` leaves in `BUF`, what `DEC` finds there and what `BYTES` puts into `OUT` are
said in its terms.
-/

namespace Sys2Proof.Machine

open Sys2Proof.Claims

/-! ## The bytes of a field (20_memory.md R57) -/

theorem valueBytes_eq_map (order : ByteOrder) (v : Value) :
    valueBytes order v = (List.range 8).map (fieldByte order v) := by
  cases order
  · simp only [valueBytes, fieldBytes_be]
    rfl
  · simp only [valueBytes, fieldBytes_le]
    rfl

theorem valueBytes_eq_map_iff {order : ByteOrder} {v : Value} {byte : Nat → Byte} :
    valueBytes order v = (List.range 8).map byte ↔ ∀ i, i < 8 → byte i = fieldByte order v i := by
  rw [valueBytes_eq_map, eq_comm]
  simp only [List.map_inj_left, List.mem_range]

/-- A value's bytes stored at `a` are found there. -/
theorem read_writeList_valueBytes (m : Memory) (a : Nat) (order : ByteOrder) (v : Value) :
    ∀ i, i < 8 → Memory.read (Memory.writeList m a (valueBytes order v)) (a + i) = fieldByte order v i :=
  valueBytes_eq_map_iff.mp (Memory.map_read_writeList m a (valueBytes_length order v)).symm

/-- `BYTES` renders the big-endian field. -/
theorem hostOut_setOut_bytesOf (s : State) (v : Value) {i : Fin 64} (hi : i.val < 8) :
    (s.setOut (bytesOf v)).hostOut i = fieldByte .be v i.val := by
  simp [bytesOf_eq, valueBytes_eq_map, hi]

/-! ## What the commands of the family leave unchanged -/

/-- The fields `RestSame` leaves out can take any value. -/
theorem restSame_update (s : State) (status finfo : Word) (cur len : BitVec 16) (buf : Memory) (stream : List Word) :
    RestSame s
      { s with status := status, finfo := finfo, cur := cur, len := len, buf := buf, stream := stream } :=
  ⟨fun _ => rfl, rfl, ⟨rfl, fun _ => rfl⟩, rfl, rfl⟩

theorem afterEncode_frame (s : State) (a : Nat) :
    StatusSame s (s.afterEncode a) ∧ RestSame s (s.afterEncode a) ∧ (s.afterEncode a).stream = s.stream := by
  rw [afterEncode_eq]
  exact ⟨⟨rfl, rfl⟩, restSame_update s .., rfl⟩

/-- Fault entry (60_exceptions.md R211). -/
theorem faultEntered_raiseFault (s : State) (cause : Cause) (word : Word) :
    FaultEntered cause.code word s (s.raiseFault cause word) :=
  ⟨statusFault_withFault .., statusCause_withFault .., rfl, statusDF_withFault .., statusReserved_withFault ..,
    ⟨rfl, rfl⟩, fun _ => rfl, restSame_update s ..⟩

/-- What `DEC` never changes: all but the registers, `CUR` and `DF`. -/
def DecKeeps (s t : State) : Prop :=
  t.len = s.len ∧ statusFault t.status = statusFault s.status ∧ statusCause t.status = statusCause s.status ∧
    statusReserved t.status = statusReserved s.status ∧ t.finfo = s.finfo ∧ t.ord = s.ord ∧ OutSame s t ∧
    BytesSame s t ∧ InputsSame s t ∧ t.draws = s.draws

theorem decKeeps_setDF (s : State) (regs : Vector Value 16) (cur : BitVec 16) (df : Bool) :
    DecKeeps s ({ s with regs := regs, cur := cur }.setDF df) :=
  ⟨rfl, statusFault_withDF .., statusCause_withDF .., statusReserved_withDF .., rfl, rfl, ⟨rfl, fun _ => rfl⟩,
    fun _ => rfl, ⟨rfl, rfl⟩, rfl⟩

end Sys2Proof.Machine

namespace Sys2Proof.Proofs

open Sys2Proof.Machine Sys2Proof.Claims

/-- Settles O52: the bytes of `high` and of `low` are the two halves of the big-endian field. -/
theorem bytesEmitsHighThenLow : Obligations.BytesEmitsHighThenLow := by
  intro ra s
  refine ⟨s.setOut (bytesOf (s.readReg ra)), rfl, rfl, fun i hi => ?_, fun i hlo hi => ?_, fun i hi => ?_,
    onlyOut_setOut ..⟩
  · exact (hostOut_setOut_bytesOf s _ (by omega)).trans (if_pos hi)
  · exact (hostOut_setOut_bytesOf s _ hi).trans (if_neg (Nat.not_lt.mpr hlo))
  · exact s.hostOut_setOut_of_ge hi

/-- Settles O53: `BUF` takes the bytes of the field before `CUR` and `LEN` move. -/
theorem encStoresTheFieldOrRaisesOverrun : Obligations.EncStoresTheFieldOrRaisesOverrun := by
  intro ra order s ⟨_, hmax⟩
  refine ⟨fun hfit => ?_, fun hover => ⟨_, _, execEnc_overrun hover, rfl, faultEntered_raiseFault .., rfl⟩⟩
  have henc : exec (.enc ra order) s = _ := execEnc_stores hfit
  have hcur : s.cur.toNat + 8 < 2 ^ 16 := by omega
  obtain ⟨hstatus, hrest, hstream⟩ :=
    afterEncode_frame { s with buf := Memory.writeList s.buf s.cur.toNat (valueBytes order (s.readReg ra)) } s.cur.toNat
  refine ⟨_, henc, ?_, (exec_effect henc).bytesSameOutside, afterEncode_cur hcur, afterEncode_len hcur, hstatus, hrest,
    hstream⟩
  rw [afterEncode_buf]
  exact read_writeList_valueBytes s.buf s.cur.toNat order _

/-- Settles O54: the two cases are those of the bytes remaining, with one frame. -/
theorem decReadsTheFieldOrReportsFailure : Obligations.DecReadsTheFieldOrReportsFailure := by
  intro rd order s hlen
  by_cases hfit : s.cur.toNat + 8 ≤ s.len.toNat
  · obtain ⟨v, hv, hdec⟩ := execDec_reads (rd := rd) (order := order) hfit (hfit.trans hlen)
    refine ⟨_, hdec, fun _ => ⟨?_, ?_, statusDF_withDF .., fun r hr => s.readReg_writeReg_other hr v⟩,
      fun hshort => absurd hfit (Nat.not_le.mpr hshort), decKeeps_setDF s ..⟩
    · have hreg : State.readReg _ rd = v := s.readReg_writeReg_same rd v
      exact hreg.symm ▸ valueBytes_eq_map_iff.mp hv
    · exact (BitVec.toNat_ofNat ..).trans (Nat.mod_eq_of_lt (hfit.trans_lt s.len.isLt))
  · have hshort : s.len.toNat < s.cur.toNat + 8 := Nat.not_le.mp hfit
    exact ⟨_, execDec_short hshort, fun h => absurd h hfit, fun _ => ⟨rfl, statusDF_withDF .., fun _ => rfl⟩,
      decKeeps_setDF s ..⟩

/-- Settles O57: the 8 bytes `DEC` reads determine the value `ENC` stored, and `BYTES` and `ENC.BE` give the same
field. -/
theorem encodeDecodeRoundTrip : Obligations.EncodeDecodeRoundTrip := by
  intro ra rd order s hwf hfit
  have hmax := hwf.2
  constructor
  · obtain ⟨t, v, henc, hseek, hv, hdec⟩ := exec_enc_seek_dec hwf hfit ra rd order order
    refine ⟨t, _, _, henc, hseek, hdec, ?_, ?_, statusDF_withDF ..⟩
    · exact (State.readReg_writeReg_same ..).trans (valueBytes_inj hv)
    · exact (BitVec.toNat_ofNat ..).trans (Nat.mod_eq_of_lt (by omega))
  · obtain ⟨hstores, -⟩ := encStoresTheFieldOrRaisesOverrun ra .be s hwf
    obtain ⟨t, henc, hbytes, -⟩ := hstores hfit
    exact ⟨t, _, henc, rfl, fun i hi => (hostOut_setOut_bytesOf s _ hi).trans (hbytes i.val hi).symm⟩

/-- Settles O55. -/
theorem seekSetsTheCursor : Obligations.SeekSetsTheCursor :=
  fun imm s => ⟨s.setCur imm, rfl, rfl, rfl, ⟨rfl, rfl⟩, fun _ => rfl, restSame_update s .., rfl⟩

/-- Settles O56. -/
theorem setlenSetsTheLengthOrFaults : Obligations.SetlenSetsTheLengthOrFaults :=
  fun _ s =>
    ⟨fun hle => ⟨_, execSetlen_sets hle, rfl, rfl, ⟨rfl, rfl⟩, fun _ => rfl, restSame_update s .., rfl⟩,
      fun hgt => ⟨_, _, execSetlen_bad hgt, rfl, faultEntered_raiseFault .., rfl⟩⟩

end Sys2Proof.Proofs
end

section
/-!
PROOFS. The statements of the families 60_exceptions.md and 70_reset_and_hazards.md: what fault entry writes and what a
halted block does; what each command does to `FAULT`, `CAUSE` and `FINFO`, from its effect (`Effect.fault`); the state a
reset leaves, and the invariant there and at the ports.
-/

namespace Sys2Proof.Machine

open Sys2Proof.Claims

/-! ## Faults (60_exceptions.md R211, R212, R220) -/

theorem step_halted {s : State} (h : s.halted = true) : step s = .fault .halted := if_pos h

/-- The fault of an illegal word; the word taken off the stream is not among the state that fault entry keeps. -/
theorem faultEntered_takeIllegal (s : State) (w : Word) (rest : List Word) :
    FaultEntered 1 w s (s.takeIllegal w rest) :=
  faultEntered_raiseFault (s.consume rest) .illegalCommand w

/-- `FAULT`, `CAUSE` and `FINFO` stay as they are, unless `ENC` or `SETLEN` raises the fault of its own. -/
theorem Effect.fault {i : Instr} {s t : State} (h : Effect i s t) :
    (statusFault t.status = statusFault s.status ∧ statusCause t.status = statusCause s.status ∧ t.finfo = s.finfo) ∨
      (isEnc i ∧ FaultEntered 2 (commandWord i) s t) ∨ (isSetlen i ∧ FaultEntered 3 (commandWord i) s t) := by
  cases h with
  | overruns hi => exact .inr (.inl ⟨hi, faultEntered_raiseFault s .encodeOverrun _⟩)
  | badLength hi => exact .inr (.inr ⟨hi, faultEntered_raiseFault s .badLength _⟩)
  | fallsShort => exact .inl ⟨statusFault_withDF .., statusCause_withDF .., rfl⟩
  | reads => exact .inl ⟨statusFault_withDF .., statusCause_withDF .., rfl⟩
  | stores => rw [afterEncode_eq]; exact .inl ⟨rfl, rfl, rfl⟩
  | _ => exact .inl ⟨rfl, rfl, rfl⟩

theorem encode_of_isEnc {i : Instr} (hi : isEnc i) : encode i = [commandWord i] := by
  obtain ⟨ra, order, rfl⟩ := hi
  rfl

theorem encode_of_isSetlen {i : Instr} (hi : isSetlen i) : encode i = [commandWord i] := by
  obtain ⟨imm, rfl⟩ := hi
  rfl

/-! ## Reset (70_reset_and_hazards.md R240) -/

theorem halted_hostReset (s : State) : s.hostReset.halted = false := (by decide : statusFault 0 = false)

theorem idle_hostReset (s : State) : s.hostReset.idle = true := (idle_iff _).mpr ⟨rfl, halted_hostReset s⟩

theorem outIs_hostReset (s : State) : OutIs s.hostReset [] := ⟨rfl, hostOut_resetWith s.cfg s.buf⟩

/-- After a reset the first command pushed is performed. -/
theorem step_hostReset_hostPush (s : State) {words rest : List Word} {i : Instr}
    (hd : decode words = .command i rest) :
    step (s.hostReset.hostPush words) = exec i { s.hostReset with stream := rest } :=
  step_command (s := s.hostReset.hostPush words) (halted_hostReset s) hd

/-! ## The invariant after a reset and at the ports -/

/-- Only `BUFSIZE` and `BUF` are open in a state after a power-up reset. -/
theorem inv_resetWith {cfg : Config} {buf : Memory} (hcfg : cfg.wf) (hwf : Memory.wf buf)
    (hin : ∀ c ∈ buf, c.1 < cfg.bufSize) : (State.resetWith cfg buf).Inv where
  cfg_wf := hcfg
  len_le := Nat.zero_le _
  buf_wf := hwf
  buf_inside := hin
  ord_code := .inl rfl
  outlen_le := Nat.zero_le _
  out_tail := fun i _ => hostOut_resetWith cfg buf i
  status_reserved := (by decide : statusReserved 0 = 0)
  no_fault := fun _ => ⟨(by decide : statusCause 0 = 0), rfl⟩
  fault_cause := fun h => absurd h (by decide : ¬ statusFault 0 = true)

namespace State

variable {s : State}

theorem Inv.hostReset (h : s.Inv) : s.hostReset.Inv :=
  { inv_resetWith h.cfg_wf h.buf_wf h.buf_inside with }

theorem Inv.hostLoad (h : s.Inv) {addr : Nat} {b : Byte} {t : State} (hload : s.hostLoad addr b = some t) :
    t.Inv := by
  unfold State.hostLoad at hload
  split at hload
  case isTrue hport =>
    cases hload
    exact h.writeList (bytes := [b]) hport.2
  case isFalse => cases hload

end State

end Sys2Proof.Machine

namespace Sys2Proof.Proofs

open Sys2Proof.Machine Sys2Proof.Claims

/-- Settles O9: the decoder calls the word illegal whatever stands behind it. -/
theorem illegalWordRaisesIllegalCommand : Obligations.IllegalWordRaisesIllegalCommand := by
  intro s w rest hh hstream hw
  obtain ⟨why, hd⟩ := (decode_illegal_iff (rest := rest)).mpr hw
  exact ⟨s.takeIllegal w rest, step_illegal hh (hstream ▸ hd), faultEntered_takeIllegal s w rest, rfl⟩

/-- Settles O11: `FAULT` is kept or set by the effect of every command. -/
theorem onlyResetClearsAFault : Obligations.OnlyResetClearsAFault := by
  refine ⟨fun i s t hexec => ?_, fun s => ⟨halted_hostReset s, (by decide : statusCause 0 = 0), rfl⟩⟩
  obtain hsame | ⟨hi, hfault, hcause, hfinfo, -⟩ | ⟨hi, hfault, hcause, hfinfo, -⟩ := (exec_effect hexec).fault
  · exact ⟨hsame.1.trans, .inl hsame⟩
  · exact ⟨fun _ => hfault, .inr (.inl ⟨hi, hfault, hcause, hfinfo ▸ encode_of_isEnc hi⟩)⟩
  · exact ⟨fun _ => hfault, .inr (.inr ⟨hi, hfault, hcause, hfinfo ▸ encode_of_isSetlen hi⟩)⟩

/-- Settles O10: a push leaves `FAULT` as it is. -/
theorem haltedBlockPerformsNoStep : Obligations.HaltedBlockPerformsNoStep := by
  intro s h
  refine ⟨step_halted h, runEnd_halted h, fun words k => ?_⟩
  have hpush : (s.hostPush words).halted = true := h
  exact ⟨step_halted hpush, runFor_of_runEnd (runEnd_halted hpush) k⟩

/-- Settles O12. -/
theorem faultEntryWritesThreeFields : Obligations.FaultEntryWritesThreeFields :=
  fun s cause word => ⟨faultEntered_raiseFault s cause word, rfl⟩

/-- Settles O16. -/
theorem resetInputEstablishesTheResetValues : Obligations.ResetInputEstablishesTheResetValues :=
  fun s => ⟨readReg_resetWith s.cfg s.buf, rfl, rfl, rfl, rfl, rfl, outIs_hostReset s, fun _ => rfl, rfl, rfl,
    idle_hostReset s, fun _ _ _ hd => step_hostReset_hostPush s hd⟩

/-- Settles O17: a reset after power-up meets the invariant with the `BUFSIZE` and the `BUF` of any state that does. -/
theorem invariantHoldsAtResetAndAtThePorts : Obligations.InvariantHoldsAtResetAndAtThePorts :=
  ⟨inv_resetWith (by decide) (by decide) (by decide), fun _ _ => inv_resetWith,
    fun _ hs => ⟨hs.hostReset, hs.hostPush, fun _ _ _ => hs.hostLoad⟩⟩

end Sys2Proof.Proofs
end
